-- ==== Sys2Proof/Word.lean ====
section
/-! DEFINITION. The value types of spec rule R9, and the 14-bit window offset of rules R50 and R95. -/

namespace Sys2Proof

/-- An 8-bit unsigned number (R9). -/
abbrev Byte := BitVec 8

/-- A 16-bit unsigned number (R9): CODE and ILEN. -/
abbrev Half := BitVec 16

/-- A 32-bit unsigned number (R9): bus data, command words, the CRC accumulator. -/
abbrev Word := BitVec 32

/-- A byte offset from `BLOCK_BASE` inside the 16 KiB window: 14 bits (R5, R50, R95). -/
abbrev Offset := BitVec 14

end Sys2Proof
end

