-- ==== Sys2Proof/Config.lean ====
section
/-! DEFINITION. The implementation parameters of spec rule R5: the fixed values, and the one OPEN value. -/

namespace Sys2Proof.Config

/-- `IBUF_CAP`: the number of input cells (R5). -/
def ibufCap : Nat := 1024

/-- `OBUF_ENTRIES`: the number of byte slots of the OBUF window (R5). -/
def obufEntries : Nat := 2048

/-- `MAX_FRAME`: the largest frame BUILD can produce, `IBUF_CAP + 9` (R5, R90). -/
def maxFrame : Nat := 1033

/-- `WINDOW_SIZE` in bytes (R5, R50). -/
def windowSize : Nat := 0x4000

/-- `BUS_WIDTH` in bytes: the one supported access size (R5, R53). -/
def accessBytes : Nat := 4

/-- `CRC_POLY` (R5). -/
def crcPoly : Word := 0x04C11DB7#32

/-- `CRC_INIT` (R5). -/
def crcInit : Word := 0xFFFFFFFF#32

/-- `SOF1`, the first start-of-frame marker (R5). -/
def sof1 : Byte := 0x48#8

/-- `SOF2`, the second start-of-frame marker (R5). -/
def sof2 : Byte := 0x5A#8

/-- `CAPS` as it reads: `IBUF_CAP` in bits [15:0], zero above (R35). -/
def caps : Word := 0x00000400#32

/-- Which multiple of 0x4000 `BLOCK_BASE` is: chosen by the platform, OPEN (R5, R52, D4).
It has no value here, so whatever is proved holds for every platform (assumption 8). -/
opaque blockSlot : Nat

/-- `BLOCK_BASE`, a multiple of 0x4000 (R52). -/
def blockBase : Nat := blockSlot * windowSize

end Sys2Proof.Config
end

