-- ==== Sys2Proof/Syntax.lean ====
section
/-! DEFINITION. What the machine is told: the three commands (spec rule R81), the registers by name (R23),
the host's bus accesses (R95, R160, R161), the moves of the three agents (R11), and the lines of a host
script (R93, R94). -/

namespace Sys2Proof

/-- The commands of the decode table (R81), one constructor per row of the opcode table. No command has
an operand field: its operands are register values (R21, R80). -/
inductive Instr where
  | build
  | checksum
  | organize
  deriving DecidableEq, Repr

/-- The twelve registers of the map (R23), by name. -/
inductive Reg where
  | cmd
  | status
  | irqEn
  | dest
  | src
  | options
  | code
  | ilen
  | olen
  | crcByte
  | crc32
  | caps
  deriving DecidableEq, Repr

/-- One host access at an offset of the window (R11, R160, R161). `size` is in bytes; the only supported
size is 4 (R53), and the others exist here so that the fault they meet can be stated (assumption 11). -/
inductive Access where
  | read (off : Offset) (size : Nat)
  | write (off : Offset) (size : Nat) (data : Word)
  deriving DecidableEq, Repr

/-- The direction of a bus access (R95). -/
inductive Dir where
  | R
  | W
  deriving DecidableEq, Repr

/-- A completed access as the triple `(dir, off, data)` of R95; a read's data is the value returned. -/
structure BusCycle where
  dir : Dir
  off : Offset
  data : Word
  deriving DecidableEq, Repr

/-- One move of one agent (R11). The order of moves is not fixed by the spec (R187, R211); `State.schedule`
holds it as data (assumption 1). -/
inductive Move where
  /-- the host does one bus access -/
  | host (a : Access)
  /-- the host's polling loop `WAIT`: read STATUS until BUSY is 0. In a busy block `polls` reads return BUSY = 1
  before the engine has its turn; how many is open (R94, R211, assumption 4) -/
  | wait (polls : Nat)
  /-- the engine takes its turn: the commit, if a command is accepted (R141) -/
  | engine
  /-- reset is asserted (R200) -/
  | reset
  deriving DecidableEq, Repr

/-- The target of a `WR` or `RD` line (R93). -/
inductive Target where
  | reg (r : Reg)
  | ibuf (i : Nat)
  | obuf (i : Nat)
  | offset (n : Nat)
  deriving DecidableEq, Repr

/-- One line of a host script (R93, R94). -/
inductive Line where
  /-- `WR <target>, <value>` -/
  | wr (t : Target) (v : Word)
  /-- `RD <target> -> <name>`; the name is the host's own and no state of the block -/
  | rd (t : Target) (name : String)
  /-- `WAIT` -/
  | wait
  /-- `BUILD`, `CHECKSUM` or `ORGANIZE` -/
  | command (i : Instr)
  /-- `LOADIN b0, ..., b(n-1)` -/
  | loadin (values : List Word)
  /-- `CLRST` -/
  | clrst
  /-- `; text` -/
  | comment (text : String)
  deriving DecidableEq, Repr

/-- A host script (R93). -/
abbrev Script := List Line

end Sys2Proof
end

