-- ==== Sys2Proof/WellFormed.lean ====
section
/-! DEFINITION. Which terms of the syntax are meaningful: window indices and numeric offsets lie in the ranges
of spec rules R51, R93 and R95. -/

namespace Sys2Proof

/-- Every command is well formed: it has no operand field to check (R80). -/
def Instr.wf : Instr → Bool
  | .build => true
  | .checksum => true
  | .organize => true

/-- A target names an entry that exists (R51) or a 14-bit offset (R95). -/
def Target.wf : Target → Bool
  | .reg _ => true
  | .ibuf i => i < Config.ibufCap
  | .obuf i => i < Config.obufEntries
  | .offset n => n < Config.windowSize

/-- `LOADIN` writes one IBUF cell per value, so it has at most `IBUF_CAP` values (R94, R51). -/
def Line.wf : Line → Bool
  | .wr t _ => t.wf
  | .rd t _ => t.wf
  | .wait => true
  | .command i => i.wf
  | .loadin values => values.length ≤ Config.ibufCap
  | .clrst => true
  | .comment _ => true

def Script.wf (s : Script) : Bool := s.all Line.wf

end Sys2Proof
end

