-- ==== Sys2Proof/Decode.lean ====
section
/-! DEFINITION. The command decoder and encoder (spec rules R80 to R82), from the spec's decode table. -/

namespace Sys2Proof

/-- Why a command word is not decoded. -/
inductive DecodeReject where
  /-- every word but 0x00000001, 0x00000002 and 0x00000003 is reserved (R82) -/
  | reservedWord (w : Word)
  deriving DecidableEq, Repr

/-- A row of the decode table: the bits compared, their values, and the command. -/
structure OpcodeRow where
  mask : Word
  pattern : Word
  instr : Instr
  deriving DecidableEq, Repr

/-- The command decode table (R81). The mask is all ones: a decoder compares the whole word. -/
def opcodeTable : List OpcodeRow :=
  [ { mask := 0xFFFFFFFF#32, pattern := 0x00000001#32, instr := .build },
    { mask := 0xFFFFFFFF#32, pattern := 0x00000002#32, instr := .checksum },
    { mask := 0xFFFFFFFF#32, pattern := 0x00000003#32, instr := .organize } ]

/-- The decoder, total on every 32-bit word (R81, R82). -/
def decode (w : Word) : Except DecodeReject Instr :=
  match opcodeTable.find? (fun row => w &&& row.mask == row.pattern) with
  | some row => .ok row.instr
  | none => .error (.reservedWord w)

/-- The encoder: the CMD word of each command (R81; R142, R143, R144 under Encoding). -/
def encode : Instr → Word
  | .build => 0x00000001#32
  | .checksum => 0x00000002#32
  | .organize => 0x00000003#32

/-- The instruction the decoder reads from `w`, numbered as the opcode table numbers its one 32-bit word.
A command word is a number on the data bus, so no byte order enters (R57). Every bit of `w` lies below
`nbits`, and `nbits` is at most 32. -/
def decodeTableWord (nbits w : Nat) : Option Instr :=
  if nbits ≤ 32 ∧ w < 2 ^ nbits then (decode (BitVec.ofNat 32 w)).toOption else none

/-- No two rows of the decode table match one word. -/
theorem opcodeTable_no_overlap :
    opcodeTable.Pairwise (fun a b => a.pattern &&& b.mask ≠ b.pattern &&& a.mask) := by decide

end Sys2Proof
end

