-- ==== Sys2Proof/Machine/Datapath.lean ====
section
/-! DEFINITION. The datapath: the Frame Builder and the Checksum Engine (spec rules R110 to R125). Every function is
total and pure (R110); every number is unsigned and narrow (R123). -/

namespace Sys2Proof.Machine

/-- The low byte of a command code, `code AND 0xFF` (R87, R111). -/
def codeLo (code : Half) : Byte := (code &&& 0xFF#16).setWidth 8

/-- The high byte of a command code, `(code >> 8) AND 0xFF` (R87, R111). -/
def codeHi (code : Half) : Byte := ((code >>> 8) &&& 0xFF#16).setWidth 8

/-- `hp`: 1 if the high byte is present in the frame, else 0; only `hi` decides it (R87, R111). -/
def codeHp (code : Half) : Nat := if codeHi code ≠ 0x00#8 then 1 else 0

/-- `SplitCode(code)` (R111). -/
def splitCode (code : Half) : Byte × Byte × Nat := (codeLo code, codeHi code, codeHp code)

/-- `AssembleBody`: markers, length placeholder, fields, code bytes and payload (R112). -/
def assembleBody (dest src opts : Byte) (code : Half) (p : List Byte) : List Byte :=
  match splitCode code with
  | (lo, hi, hp) =>
    [Config.sof1, Config.sof2, 0x00#8, dest, src, opts, lo] ++ (if hp = 1 then [hi] else []) ++ p

/-- `FixLength`: write `(len - 3) mod 256` at offset 2 (R113; used on sequences of at least 3 bytes). -/
def fixLength (b : List Byte) : List Byte := b.set 2 (BitVec.ofNat 8 (b.length - 3))

/-- `Organize`: reverse each 4-byte group, a short final group padded on the right with zeros (R114). -/
def organize : List Byte → List Byte
  | [] => []
  | [a] => [0x00#8, 0x00#8, 0x00#8, a]
  | [a, b] => [0x00#8, 0x00#8, b, a]
  | [a, b, c] => [0x00#8, c, b, a]
  | a :: b :: c :: d :: rest => d :: c :: b :: a :: organize rest

/-- `CrcBitStep`: shift left, and XOR the polynomial if the top bit was 1 before the shift (R116). -/
def crcBitStep (acc : Word) : Word :=
  if acc.getLsbD 31 then (acc <<< 1) ^^^ Config.crcPoly else acc <<< 1

/-- `CrcByteStep`: the byte into bits 31 to 24, then eight bit steps (R117). -/
def crcByteStep (acc : Word) (b : Byte) : Word := crcBitStep^[8] (acc ^^^ (b.setWidth 32 <<< 24))

/-- `Crc32Acc`: the accumulator over a reordered buffer; no reflection and no final XOR (R118). -/
def crc32Acc (r : List Byte) : Word := r.foldl crcByteStep Config.crcInit

/-- `ChecksumOf`: the low 8 bits of the accumulator over the organized input (R119). -/
def checksumOf (s : List Byte) : Byte := (crc32Acc (organize s)).setWidth 8

/-- A frame without its checksum: the body with its length in place (R120, first two steps). -/
def frameBody (dest src opts : Byte) (code : Half) (p : List Byte) : List Byte :=
  fixLength (assembleBody dest src opts code p)

/-- `BuildFrame`: the frame and its untruncated accumulator (R120). -/
def buildFrame (dest src opts : Byte) (code : Half) (p : List Byte) : List Byte × Word :=
  let b := frameBody dest src opts code p
  let a := crc32Acc (organize b)
  (b ++ [a.setWidth 8], a)

/-- The 32-bit little-endian load of one 4-byte group (R122). -/
def groupWord (b0 b1 b2 b3 : Byte) : Word :=
  b0.setWidth 32 ||| b1.setWidth 32 <<< 8 ||| b2.setWidth 32 <<< 16 ||| b3.setWidth 32 <<< 24

/-- The words `W_k` of an input padded with zeros to whole groups (R122). -/
def groupWords : List Byte → List Word
  | [] => []
  | [a] => [groupWord a 0x00#8 0x00#8 0x00#8]
  | [a, b] => [groupWord a b 0x00#8 0x00#8]
  | [a, b, c] => [groupWord a b c 0x00#8]
  | a :: b :: c :: d :: rest => groupWord a b c d :: groupWords rest

/-- One step of a word-wide engine: XOR the word, then 32 bit steps (R122). -/
def crcWordStep (acc w : Word) : Word := crcBitStep^[32] (acc ^^^ w)

/-- The accumulator of a word-wide engine (R122; the block's results are defined by `crc32Acc`). -/
def crc32Words (ws : List Word) : Word := ws.foldl crcWordStep Config.crcInit

end Sys2Proof.Machine
end

