-- ==== Sys2Proof/Machine/State.lean ====
section
/-! DEFINITION. The complete state of FACRC (spec rules R20 to R41), the model's own schedule and trace,
the reasons a step stops, and the state after reset. -/

namespace Sys2Proof.Machine

/-- `ENG`, the only sequencing state (R22). -/
inductive Eng where
  | idle
  /-- command `op` has been accepted and not yet committed -/
  | busy (op : Instr)
  deriving DecidableEq, Repr

/-- Byte cells by index, strictly rising; a cell not listed is `unwritten` (R36, assumption 9). -/
abbrev Memory := List Host.Cell

/-- The model faults of R10 and R182: points where the spec gives the block no behaviour. Each is safe: the
model stops, and nothing is claimed of what a real block does there. -/
inductive Fault where
  /-- raised by `memRead` and `memWrite` for a size other than 4 or a misaligned offset (R53, R54); safe -/
  | unsupportedAccess (off : Offset) (size : Nat)
  /-- raised by `ibufRead` for a host read of a cell never written since reset (R170); safe -/
  | unwrittenRead (i : Nat)
  /-- raised by `inBytes` at a commit that consumes a cell never written since reset (R141, R208); safe -/
  | unwrittenInput (i : Nat)
  deriving DecidableEq, Repr

/-- Reasons for which the model itself gives no meaning. -/
inductive Refusal where
  /-- an instruction whose arm has no meaning yet; raised by no arm of this model; safe -/
  | notModelled (mnemonic : String)
  deriving DecidableEq, Repr

/-- The state of FACRC (R20), and after it the model's own two fields. STATUS.BUSY is not stored: it is 1
exactly when `eng` is busy (R25, assumption 10). OLEN, OBUF and `irq` are functions of what is stored
(R32, R37, R39), CAPS is a constant (R35) and CMD has no storage (R24). -/
structure State where
  /-- `ENG` (R22) -/
  eng : Eng
  /-- STATUS bit 1 (R25) -/
  done : Bool
  /-- STATUS bit 2 (R25) -/
  errCmd : Bool
  /-- STATUS bit 3 (R25) -/
  errLen : Bool
  /-- STATUS bit 4 (R25) -/
  errBusy : Bool
  /-- IRQ_EN: DONE_IE is bit 0, ERR_IE is bit 1 (R26) -/
  irqEn : BitVec 2
  /-- DEST (R27) -/
  dest : Byte
  /-- SRC (R28) -/
  src : Byte
  /-- OPTIONS (R29) -/
  options : Byte
  /-- CODE (R30) -/
  code : Half
  /-- ILEN (R31) -/
  ilen : Half
  /-- `OUT`, the output byte sequence (R37) -/
  out : List Byte
  /-- CRC_BYTE (R33) -/
  crcByte : Byte
  /-- CRC32 (R34) -/
  crc32 : Word
  /-- `IBUF`, the input cells by index (R36) -/
  ibuf : Memory
  /-- the model's own: the moves still to come, next first (assumption 1) -/
  schedule : List Move
  /-- the model's own: the bus accesses done so far, newest first (R95, assumption 5) -/
  trace : List BusCycle
  deriving DecidableEq, Repr

/-- The state after reset (R41), with nothing scheduled and nothing recorded. -/
def State.reset : State where
  eng := .idle
  done := false
  errCmd := false
  errLen := false
  errBusy := false
  irqEn := 0#2
  dest := 0x00#8
  src := 0x00#8
  options := 0x00#8
  code := 0x0000#16
  ilen := 0x0000#16
  out := []
  crcByte := 0x00#8
  crc32 := 0x00000000#32
  ibuf := []
  schedule := []
  trace := []

end Sys2Proof.Machine
end

