-- ==== Sys2Proof/Machine/Ops.lean ====
section
/-! DEFINITION. The named operations over the input cells and the registers. FACRC takes no trap (spec rules
R180, R188): where a processor would take an exception, it sets one sticky STATUS bit, by `setErrCmd`,
`setErrLen` or `setErrBusy` here, and there is nothing to return from (R189). -/

namespace Sys2Proof.Machine

/-- Read cell `i`: its byte, or none while it is `unwritten` (R8, R36). -/
def Memory.read (m : Memory) (i : Nat) : Option Byte :=
  match m with
  | [] => none
  | (j, b) :: rest => if j = i then some b else Memory.read rest i

/-- Write cell `i`, keeping the cells in rising order with no repeat (R8, R36). -/
def Memory.write (m : Memory) (i : Nat) (b : Byte) : Memory :=
  match m with
  | [] => [(i, b)]
  | (j, c) :: rest =>
    if i < j then (i, b) :: (j, c) :: rest
    else if i = j then (i, b) :: rest
    else (j, c) :: Memory.write rest i b

/-- The canonical form: indices strictly rising. An unlisted cell has no value, so no entry can equal
what an unlisted cell reads as. -/
def Memory.wf (m : Memory) : Bool :=
  match m with
  | [] => true
  | [_] => true
  | (i, _) :: (j, c) :: rest => decide (i < j) && Memory.wf ((j, c) :: rest)

/-- Every listed cell exists: its index is below `IBUF_CAP` (R36). -/
def Memory.inCap (m : Memory) : Bool := m.all (fun cell => decide (cell.1 < Config.ibufCap))

/-- Set the sticky bit STATUS.ERR_CMD (R181). -/
def State.setErrCmd (s : State) : State := { s with errCmd := true }

/-- Set the sticky bit STATUS.ERR_LEN (R181). -/
def State.setErrLen (s : State) : State := { s with errLen := true }

/-- Set the sticky bit STATUS.ERR_BUSY (R181). -/
def State.setErrBusy (s : State) : State := { s with errBusy := true }

/-- Record a completed bus access in the trace (assumption 5). -/
def State.record (s : State) (c : BusCycle) : State := { s with trace := c :: s.trace }

/-- The busy gate on the inputs of a command: while busy the write is dropped and ERR_BUSY is set (R173). -/
def gatedWrite (store : State → State) (s : State) : State :=
  match s.eng with
  | .busy _ => s.setErrBusy
  | .idle => store s

/-- A reset sets every element of R20 to its reset value, cancelling a running command (R200, R201). What is
still scheduled, and what the bus has carried, are not the block's and stay. -/
def resetBlock (s : State) : State :=
  { State.reset with schedule := s.schedule, trace := s.trace }

end Sys2Proof.Machine
end

