-- ==== Sys2Proof/Machine/Flags.lean ====
section
/-! DEFINITION. The STATUS bits and the interrupt output (spec rules R25, R26, R39, R164). FACRC has no condition
codes (R40). -/

namespace Sys2Proof.Machine

/-- STATUS.BUSY: 1 exactly when `ENG = BUSY(_)` (R25). -/
def State.busy (s : State) : Bool :=
  match s.eng with
  | .idle => false
  | .busy _ => true

/-- A single bit as a word with that bit at position `k`. -/
def bitAt (b : Bool) (k : Nat) : Word := (BitVec.ofBool b).setWidth 32 <<< k

/-- What a read of STATUS returns (R164). -/
def statusWord (s : State) : Word :=
  bitAt s.busy 0 ||| bitAt s.done 1 ||| bitAt s.errCmd 2 ||| bitAt s.errLen 3 ||| bitAt s.errBusy 4

/-- `StatusW1C(data)`: each of bits 1 to 4 that is 1 in `data` clears its STATUS bit; BUSY cannot be
written (R164). -/
def statusW1C (data : Word) (s : State) : State :=
  { s with
    done := s.done && !data.getLsbD 1
    errCmd := s.errCmd && !data.getLsbD 2
    errLen := s.errLen && !data.getLsbD 3
    errBusy := s.errBusy && !data.getLsbD 4 }

/-- IRQ_EN.DONE_IE (R26). -/
def State.doneIE (s : State) : Bool := s.irqEn.getLsbD 0

/-- IRQ_EN.ERR_IE (R26). -/
def State.errIE (s : State) : Bool := s.irqEn.getLsbD 1

/-- The interrupt output, a level and a pure function of the state (R39, R183). -/
def irq (s : State) : Bool :=
  (s.done && s.doneIE) || ((s.errCmd || s.errLen || s.errBusy) && s.errIE)

end Sys2Proof.Machine
end

