-- ==== Sys2Proof/Machine/Operands.lean ====
section
/-! DEFINITION. The operands: the input bytes a command consumes (spec rule R141), and the address map that turns
a bus address or a window offset into the thing it names (R23, R50 to R52). -/

namespace Sys2Proof.Machine

/-- The bytes of `n` cells from cell `i` on, or the fault of the first of them that is unwritten (R141). -/
def collectCells (m : Memory) (i n : Nat) : Except Fault (List Byte) :=
  match n with
  | 0 => .ok []
  | k + 1 =>
    match Memory.read m i with
    | none => .error (.unwrittenInput i)
    | some b =>
      match collectCells m (i + 1) k with
      | .error f => .error f
      | .ok bs => .ok (b :: bs)

/-- `InBytes()`: cells 0 to ILEN-1, or `UnwrittenInput` (R141). -/
def inBytes (s : State) : Except Fault (List Byte) := collectCells s.ibuf 0 s.ilen.toNat

/-- The register map's offsets (R23). -/
def regOffset : Reg → Offset
  | .cmd => 0x000#14
  | .status => 0x004#14
  | .irqEn => 0x008#14
  | .dest => 0x00C#14
  | .src => 0x010#14
  | .options => 0x014#14
  | .code => 0x018#14
  | .ilen => 0x01C#14
  | .olen => 0x020#14
  | .crcByte => 0x024#14
  | .crc32 => 0x028#14
  | .caps => 0x02C#14

/-- The registers in the order of the map (R23). -/
def regMap : List Reg :=
  [.cmd, .status, .irqEn, .dest, .src, .options, .code, .ilen, .olen, .crcByte, .crc32, .caps]

/-- How many low bits of each register are used; the rest are RAZ/WI (R23, the column "bits used"). -/
def regBits : Reg → Nat
  | .cmd => 32
  | .status => 5
  | .irqEn => 2
  | .dest => 8
  | .src => 8
  | .options => 8
  | .code => 16
  | .ilen => 16
  | .olen => 16
  | .crcByte => 8
  | .crc32 => 32
  | .caps => 16

/-- What an aligned offset names (R51). -/
inductive Region where
  | reg (r : Reg)
  | reserved
  | ibuf (i : Nat)
  | obuf (i : Nat)
  deriving DecidableEq, Repr

/-- The offset of IBUF window entry `i` (R51). -/
def ibufOffset (i : Nat) : Offset := BitVec.ofNat 14 (0x1000 + 4 * i)

/-- The offset of OBUF window entry `i` (R51). -/
def obufOffset (i : Nat) : Offset := BitVec.ofNat 14 (0x2000 + 4 * i)

/-- The address map of the window for an aligned offset (R51): no offset is undecoded. -/
def region (off : Offset) : Region :=
  match regMap.find? (fun r => regOffset r == off) with
  | some r => .reg r
  | none =>
    if off.toNat < 0x1000 then .reserved
    else if off.toNat < 0x2000 then .ibuf ((off.toNat - 0x1000) / 4)
    else .obuf ((off.toNat - 0x2000) / 4)

/-- The window offset a bus address selects, or none where the address is not FACRC's (R50, R52). -/
def busSelect (addr : Nat) : Option Offset :=
  if Config.blockBase ≤ addr ∧ addr < Config.blockBase + Config.windowSize then
    some (BitVec.ofNat 14 (addr - Config.blockBase))
  else none

/-- The moves that a bus read of `size` bytes at a bus address brings to FACRC: none outside the window,
where FACRC does not respond (R52). -/
def busRead (addr size : Nat) : List Move :=
  match busSelect addr with
  | some off => [.host (.read off size)]
  | none => []

/-- The moves that a bus write of `size` bytes at a bus address brings to FACRC (R52). -/
def busWrite (addr size : Nat) (data : Word) : List Move :=
  match busSelect addr with
  | some off => [.host (.write off size data)]
  | none => []

end Sys2Proof.Machine
end

