-- ==== Sys2Proof/Machine/Commands.lean ====
section
/-! DEFINITION. The meaning of each command (spec rules R140 to R144). A command has two events, the accept and the
commit, and ENG says which is due (assumption 6). -/

namespace Sys2Proof.Machine

/-- The accept of a valid command in an idle block: the capacity check, then DONE is cleared and the command is
in progress (R140, the lines after the decode). -/
def accept (op : Instr) (s : State) : Host.Outcome State Fault Refusal :=
  if s.ilen.toNat > Config.ibufCap then .next s.setErrLen
  else .next { s with done := false, eng := .busy op }

/-- The commit: the command's effect on the input bytes, then `ENG <- IDLE` and DONE set; nothing is written if
the input faults (R141). -/
def commit (effect : List Byte → State → State) (s : State) : Host.Outcome State Fault Refusal :=
  match inBytes s with
  | .error f => .fault f
  | .ok input => .next { effect input s with eng := .idle, done := true }

/-- A command's next event: idle, its accept; in progress, its commit. While another command is in progress it is
turned away with ERR_BUSY, as any CMD write is then (R140's first line). -/
def runCommand (op : Instr) (effect : List Byte → State → State) (s : State) :
    Host.Outcome State Fault Refusal :=
  match s.eng with
  | .idle => accept op s
  | .busy current => if current = op then commit effect s else .next s.setErrBusy

/-- The effect of BUILD (R142). -/
def buildEffect (input : List Byte) (s : State) : State :=
  let r := buildFrame s.dest s.src s.options s.code input
  { s with out := r.1, crc32 := r.2, crcByte := r.2.setWidth 8 }

/-- The effect of CHECKSUM (R143): OUT is kept. -/
def checksumEffect (input : List Byte) (s : State) : State :=
  let a := crc32Acc (organize input)
  { s with crc32 := a, crcByte := a.setWidth 8 }

/-- The effect of ORGANIZE (R144): CRC_BYTE and CRC32 are kept. -/
def organizeEffect (input : List Byte) (s : State) : State :=
  { s with out := organize input }

/-- BUILD (R142). -/
def execBuild (s : State) : Host.Outcome State Fault Refusal := runCommand .build buildEffect s

/-- CHECKSUM (R143). -/
def execChecksum (s : State) : Host.Outcome State Fault Refusal := runCommand .checksum checksumEffect s

/-- ORGANIZE (R144). -/
def execOrganize (s : State) : Host.Outcome State Fault Refusal := runCommand .organize organizeEffect s

end Sys2Proof.Machine
end

