-- ==== Sys2Proof/Machine/Dispatch.lean ====
section
/-! DEFINITION. Dispatch: each command's meaning, one arm per command of spec rule R81. -/

namespace Sys2Proof.Machine

def exec (i : Instr) (s : State) : Host.Outcome State Fault Refusal :=
  match i with
  | .build => Sys2Proof.Machine.execBuild s
  | .checksum => Sys2Proof.Machine.execChecksum s
  | .organize => Sys2Proof.Machine.execOrganize s

end Sys2Proof.Machine
end

