-- ==== Sys2Proof/Machine/Access.lean ====
section
/-! DEFINITION. The host's bus accesses at every offset of the window (spec rules R160 to R174). -/

namespace Sys2Proof.Machine

/-- R53 and R54: the one supported access is 32 bits wide and aligned. -/
def supported (off : Offset) (size : Nat) : Bool :=
  size == Config.accessBytes && off.extractLsb' 0 2 == 0#2

/-- What a read of a register returns (R160; R163 to R169). -/
def readReg (r : Reg) (s : State) : Word :=
  match r with
  | .cmd => 0x00000000#32
  | .status => statusWord s
  | .irqEn => s.irqEn.setWidth 32
  | .dest => s.dest.setWidth 32
  | .src => s.src.setWidth 32
  | .options => s.options.setWidth 32
  | .code => s.code.setWidth 32
  | .ilen => s.ilen.setWidth 32
  | .olen => BitVec.ofNat 32 s.out.length
  | .crcByte => s.crcByte.setWidth 32
  | .crc32 => s.crc32
  | .caps => Config.caps

/-- `IbufRead(i)` (R170). -/
def ibufRead (i : Nat) (s : State) : Except Fault Word :=
  match Memory.read s.ibuf i with
  | none => .error (.unwrittenRead i)
  | some b => .ok (b.setWidth 32)

/-- `ObufRead(i)`: entries at index OLEN and above read 0 (R171). -/
def obufRead (i : Nat) (s : State) : Word :=
  match s.out[i]? with
  | some b => b.setWidth 32
  | none => 0x00000000#32

/-- `MemRead(off, size)`: the value returned, or the model fault; no state changes (R160, R56). -/
def memRead (off : Offset) (size : Nat) (s : State) : Except Fault Word :=
  if supported off size then
    match region off with
    | .reg r => .ok (readReg r s)
    | .reserved => .ok 0x00000000#32
    | .ibuf i => ibufRead i s
    | .obuf i => .ok (obufRead i s)
  else .error (.unsupportedAccess off size)

/-- The CMD write, the accept of R140 (R162): while busy the word is not decoded and ERR_BUSY is set (R186);
a reserved word sets ERR_CMD (R145); a command starts. -/
def cmdWrite (w : Word) (s : State) : Host.Outcome State Fault Refusal :=
  match s.eng with
  | .busy _ => .next s.setErrBusy
  | .idle =>
    match decode w with
    | .error _ => .next s.setErrCmd
    | .ok i => exec i s

/-- What a write to a register does (R161; R162 to R169). -/
def writeReg (r : Reg) (data : Word) (s : State) : Host.Outcome State Fault Refusal :=
  match r with
  | .cmd => cmdWrite data s
  | .status => .next (statusW1C data s)
  | .irqEn => .next { s with irqEn := data.setWidth 2 }
  | .dest => .next (gatedWrite (fun u => { u with dest := data.setWidth 8 }) s)
  | .src => .next (gatedWrite (fun u => { u with src := data.setWidth 8 }) s)
  | .options => .next (gatedWrite (fun u => { u with options := data.setWidth 8 }) s)
  | .code => .next (gatedWrite (fun u => { u with code := data.setWidth 16 }) s)
  | .ilen => .next (gatedWrite (fun u => { u with ilen := data.setWidth 16 }) s)
  | .olen => .next s
  | .crcByte => .next s
  | .crc32 => .next s
  | .caps => .next s

/-- A write to IBUF window entry `i` (R170). -/
def ibufWrite (i : Nat) (data : Word) (s : State) : State :=
  gatedWrite (fun u => { u with ibuf := Memory.write u.ibuf i (data.setWidth 8) }) s

/-- `MemWrite(off, size, data)` (R161). -/
def memWrite (off : Offset) (size : Nat) (data : Word) (s : State) :
    Host.Outcome State Fault Refusal :=
  if supported off size then
    match region off with
    | .reg r => writeReg r data s
    | .reserved => .next s
    | .ibuf i => .next (ibufWrite i data s)
    | .obuf _ => .next s
  else .fault (.unsupportedAccess off size)

end Sys2Proof.Machine
end

