-- ==== Sys2Proof/Machine/Moves.lean ====
section
/-! DEFINITION. One move of each agent (spec rule R11), the host's scripts as moves (R93, R94), and what the next
step is, from the schedule. -/

namespace Sys2Proof.Machine

/-- The host does one access, and the bus has then carried it (R95). A write is recorded with the data written,
whether or not the block takes it. -/
def hostMove (a : Access) (s : State) : Host.Outcome State Fault Refusal :=
  match a with
  | .read off size =>
    match memRead off size s with
    | .error f => .fault f
    | .ok v => .next (s.record { dir := .R, off := off, data := v })
  | .write off size data => memWrite off size data (s.record { dir := .W, off := off, data := data })

/-- The engine's turn: the commit of the command in progress, and nothing if there is none (R141). -/
def engineMove (s : State) : Host.Outcome State Fault Refusal :=
  match s.eng with
  | .busy i => exec i s
  | .idle => .next s

/-- The STATUS read that `WAIT` repeats (R94). -/
def statusPoll : Access := .read (regOffset .status) Config.accessBytes

/-- One step from the schedule. With nothing scheduled the engine has its turn: a command in progress commits
(weak fairness, R211), and an idle block waits (R10, R203). A `WAIT` reads STATUS and stays while BUSY reads 1;
after as many such reads as it still has to do, the engine has its turn; the read that returns BUSY = 0 ends it
(R94, assumption 4). -/
def nextMove (s : State) : Host.Outcome State Fault Refusal :=
  match s.schedule with
  | [] => engineMove s
  | .host a :: rest => hostMove a { s with schedule := rest }
  | .engine :: rest => engineMove { s with schedule := rest }
  | .reset :: rest => .next (resetBlock { s with schedule := rest })
  | .wait polls :: rest =>
    match s.eng, polls with
    | .busy _, n + 1 => hostMove statusPoll { s with schedule := .wait n :: rest }
    | .busy i, 0 => exec i s
    | .idle, _ => hostMove statusPoll { s with schedule := rest }

/-- The offset of a script target (R93). -/
def targetOffset : Target → Offset
  | .reg r => regOffset r
  | .ibuf i => ibufOffset i
  | .obuf i => obufOffset i
  | .offset n => BitVec.ofNat 14 n

/-- `WR <target>, <value>` as a move (R93). -/
def writeMove (t : Target) (v : Word) : Move := .host (.write (targetOffset t) Config.accessBytes v)

/-- The cell writes of `LOADIN` from cell `i` on (R94). -/
def loadMoves (i : Nat) (values : List Word) : List Move :=
  match values with
  | [] => []
  | v :: rest => writeMove (.ibuf i) v :: loadMoves (i + 1) rest

/-- The moves of one script line: the expansions of R94. `polls` is what the schedule adds to a `WAIT`: how many
of its reads return BUSY = 1 (R211). -/
def lineMoves (polls : Nat) : Line → List Move
  | .wr t v => [writeMove t v]
  | .rd t _ => [.host (.read (targetOffset t) Config.accessBytes)]
  | .wait => [.wait polls]
  | .command i => [writeMove (.reg .cmd) (encode i)]
  | .loadin values => loadMoves 0 values ++ [writeMove (.reg .ilen) (BitVec.ofNat 32 values.length)]
  | .clrst => [writeMove (.reg .status) 0x0000001E#32]
  | .comment _ => []

/-- The moves of a script, in order (R93), with one poll count for each line; a line past the end of `polls` has 0. -/
def scriptMoves (polls : List Nat) : Script → List Move
  | [] => []
  | line :: rest => lineMoves (polls.headD 0) line ++ scriptMoves polls.tail rest

/-- The CMD write that brings a command word to the block (R24, R80). -/
def commandMove (w : Word) : Move := writeMove (.reg .cmd) w

end Sys2Proof.Machine
end

