-- ==== Sys2Proof/Machine/Step.lean ====
section
/-! DEFINITION. The step: the next move of the schedule (spec rules R11, R64), and how a command word is put where
the next step takes it. -/

namespace Sys2Proof.Machine

/-- One step of the machine: one event of the single total order of R64. -/
def step (s : State) : Host.Outcome State Fault Refusal := nextMove s

/-- `s` with the CMD write of the word `w` as its very next move, in an idle block: a command word is decoded only
while idle (R186). Nothing else changes (assumption 7). -/
def State.withFetchWord (s : State) (nbits w : Nat) : State :=
  { s with eng := .idle, schedule := commandMove (BitVec.ofNat 32 (w % 2 ^ nbits)) :: s.schedule }

end Sys2Proof.Machine
end

