-- ==== Sys2Proof/Safety.lean ====
section
/-! DEFINITION. The terms in which claims are made: the invariant of the block, what a harmless move is, and runs. -/

namespace Sys2Proof.Machine

/-- The invariant of the block. Each clause is a rule of the spec or follows from its rules; every step keeps it. -/
structure State.Inv (s : State) : Prop where
  /-- the input cells are in canonical form (assumption 9) -/
  ibuf_wf : Memory.wf s.ibuf = true
  /-- there are `IBUF_CAP` cells (R36) -/
  ibuf_inCap : Memory.inCap s.ibuf = true
  /-- `len(OUT) <= MAX_FRAME` (R37) -/
  out_le : s.out.length ≤ Config.maxFrame
  /-- `CRC_BYTE = CRC32[7:0]` (R34) -/
  crcByte_low : s.crcByte = s.crc32.setWidth 8
  /-- a command in progress passed the capacity check at its accept (R140) -/
  busy_ilen : s.busy = true → s.ilen.toNat ≤ Config.ibufCap
  /-- DONE was cleared at the accept, and only a commit sets it (R25, R140) -/
  busy_done : s.busy = true → s.done = false

/-- `t` holds every element of R20 as `s` does; only the model's own schedule and trace may differ. -/
def State.sameBlock (s t : State) : Prop := t = { s with schedule := t.schedule, trace := t.trace }

/-- Every cell a command would consume has been written (R208). -/
def State.inputWritten (s : State) : Prop := ∀ i, i < s.ilen.toNat → Memory.read s.ibuf i ≠ none

/-- An access that meets no model fault in any state: supported, and no read of the IBUF window. -/
def accessHarmless (a : Access) : Prop :=
  match a with
  | .write off size _ => supported off size = true
  | .read off size => supported off size = true ∧ (off.toNat < 0x1000 ∨ 0x2000 ≤ off.toNat)

/-- IBUF cells 0 to ILEN-1 hold the bytes of `p`, in order (R36): the input a command consumes. -/
def State.holds (s : State) (p : List Byte) : Prop :=
  p.length = s.ilen.toNat ∧ ∀ (k : Nat) (b : Byte), p[k]? = some b → Memory.read s.ibuf k = some b

/-- `s` after the bus has carried the cycle `c`, with `rest` still scheduled: nothing of the block has changed. -/
def State.carried (s : State) (rest : List Move) (c : BusCycle) : State :=
  { s with schedule := rest, trace := c :: s.trace }

/-- A supported read of `off` returns `v` and changes nothing of the block (R56, R160). -/
def ReadReturns (s : State) (off : Offset) (v : Word) : Prop :=
  ∀ rest, step { s with schedule := .host (.read off 4) :: rest } = .next (s.carried rest ⟨.R, off, v⟩)

/-- A supported write of `data` to `off` turns the block of `s` into that of `t`; `t` has `s`'s schedule and
trace, to which the step adds the access. -/
def WriteGives (s : State) (off : Offset) (data : Word) (t : State) : Prop :=
  ∀ rest, step { s with schedule := .host (.write off 4 data) :: rest }
    = .next (t.carried rest ⟨.W, off, data⟩)

/-- What every command's rule says besides its effect (R140, R141): its word `w` decodes to it; the accept and the capacity refusal in an idle
block, ERR_BUSY at the CMD write of `w` while any command runs, and the fault at the commit for the first
unwritten input cell. -/
def AcceptAndFaults (i : Instr) (w : Word) : Prop :=
  decode w = .ok i ∧ ∀ s : State,
    (s.eng = .idle → s.ilen.toNat ≤ 1024 → exec i s = .next { s with done := false, eng := .busy i }) ∧
    (s.eng = .idle → 1024 < s.ilen.toNat → exec i s = .next { s with errLen := true }) ∧
    (∀ op, s.eng = .busy op → WriteGives s 0x000#14 w { s with errBusy := true }) ∧
    (∀ k, s.eng = .busy i → k < s.ilen.toNat → Memory.read s.ibuf k = none →
      (∀ j, j < k → Memory.read s.ibuf j ≠ none) → exec i s = .fault (.unwrittenInput k))

/-- The number of moves scheduled, each of the polls of a `WAIT` counted as one (R94). -/
def turns : List Move → Nat
  | [] => 0
  | .wait polls :: rest => polls + 1 + turns rest
  | .host _ :: rest => 1 + turns rest
  | .engine :: rest => 1 + turns rest
  | .reset :: rest => 1 + turns rest

/-- A run has ended: its last access is complete and no accepted command waits for its commit (R213). -/
def State.ended (s : State) : Prop := s.schedule = [] ∧ s.eng = .idle

/-- `n` steps of the machine. -/
def run (n : Nat) (s : State) : Host.Outcome State Fault Refusal := Host.Core.run Sys2Proof.core n s

end Sys2Proof.Machine
end

