-- ==== Sys2Proof/Certificates/Slice0/Obligations.lean ====
section
/-! DEFINITION. The statements for the provers. Each docstring names the spec rule it formalises; where a clause is the
model's own choice, it names the log entry. -/

open Sys2Proof Sys2Proof.Machine

/-! ## Encodings (30_encoding.md) -/

/-- R81, with the command words written out bit by bit: the decoder accepts exactly these three words. -/
def Obligations.CommandWordsDecode : Prop :=
  ∀ (w : Word) (i : Instr), decode w = .ok i ↔
    (w = 0b00000000000000000000000000000001#32 ∧ i = .build) ∨
    (w = 0b00000000000000000000000000000010#32 ∧ i = .checksum) ∨
    (w = 0b00000000000000000000000000000011#32 ∧ i = .organize)

/-- Decode and encode agree (R80, R81), in both directions; every command is well formed. -/
def Obligations.DecodeEncodeAgree : Prop :=
  (∀ i : Instr, i.wf = true ∧ decode (encode i) = .ok i) ∧
  (∀ (w : Word) (i : Instr), decode w = .ok i → encode i = w)

/-- R82 and R145: a CMD write of any other word executes nothing. It sets ERR_CMD in an idle block and ERR_BUSY in a
busy one, and nothing else of the block changes. -/
def Obligations.ReservedWordsSetOneErrorBit : Prop :=
  ∀ (s : State) (w : Word),
    w ≠ 0x00000001#32 → w ≠ 0x00000002#32 → w ≠ 0x00000003#32 →
    decode w = .error (.reservedWord w) ∧
    (s.eng = .idle → WriteGives s 0x000#14 w { s with errCmd := true }) ∧
    (∀ op, s.eng = .busy op → WriteGives s 0x000#14 w { s with errBusy := true })

/-- R85, R86, R88 and R89: both frame formats byte by byte, with the wrapped length byte and the checksum over everything
before it. -/
def Obligations.FrameBytes : Prop :=
  ∀ (dest src opts : Byte) (code : Half) (p : List Byte),
    let lo : Byte := code.extractLsb' 0 8
    let hi : Byte := code.extractLsb' 8 8
    let short : List Byte := [0x48#8, 0x5A#8, BitVec.ofNat 8 (4 + p.length), dest, src, opts, lo] ++ p
    let long : List Byte := [0x48#8, 0x5A#8, BitVec.ofNat 8 (5 + p.length), dest, src, opts, lo, hi] ++ p
    let body : List Byte := if hi = 0x00#8 then short else long
    buildFrame dest src opts code p =
      (body ++ [(crc32Acc (organize body)).extractLsb' 0 8], crc32Acc (organize body))

/-- R90: the total length, its bounds, and its relation to the length byte. -/
def Obligations.FrameLengthBounds : Prop :=
  ∀ (dest src opts : Byte) (code : Half) (p : List Byte), p.length ≤ 1024 →
    let f := (buildFrame dest src opts code p).1
    f.length = 8 + (if code.extractLsb' 8 8 ≠ 0x00#8 then 1 else 0) + p.length ∧
    8 ≤ f.length ∧ f.length ≤ 1033 ∧
    f[2]? = some (BitVec.ofNat 8 (f.length - 4))

/-- R91: a frame is not self-delimiting as to its code width; and the rule's example. -/
def Obligations.FrameCodeWidthAmbiguity : Prop :=
  (∀ (dest src opts lo hi : Byte) (p : List Byte), hi ≠ 0x00#8 →
    buildFrame dest src opts (hi ++ lo : Half) p =
      buildFrame dest src opts (0x00#8 ++ lo : Half) (hi :: p)) ∧
  (buildFrame 0x02#8 0x01#8 0x00#8 0x01AB#16 []).1 =
    [0x48#8, 0x5A#8, 0x05#8, 0x02#8, 0x01#8, 0x00#8, 0xAB#8, 0x01#8, 0x13#8]

/-- The converse of R91 (from R85 and R86): once the code width is agreed, a frame determines every field it was
built from, so no bit of a field is dropped by the frame format. -/
def Obligations.FrameDeterminesFields : Prop :=
  ∀ (d d' s s' o o' : Byte) (c c' : Half) (p p' : List Byte),
    (splitCode c).2.2 = (splitCode c').2.2 →
    (buildFrame d s o c p).1 = (buildFrame d' s' o' c' p').1 →
    d = d' ∧ s = s' ∧ o = o' ∧ c = c' ∧ p = p'

/-! ## The datapath (40_datapath.md) -/

/-- R87 and R111: the code split. -/
def Obligations.SplitCodeFields : Prop :=
  ∀ code : Half,
    splitCode code = (code.extractLsb' 0 8, code.extractLsb' 8 8, if 0x0100 ≤ code.toNat then 1 else 0)

/-- R115: the length law and the two indexings of Organize. -/
def Obligations.OrganizeIndexLaw : Prop :=
  ∀ s : List Byte,
    (organize s).length = (s.length + 3) / 4 * 4 ∧
    (∀ k, 4 * k < s.length →
      ((organize s).drop (4 * k)).take 4 =
        ((s.drop (4 * k)).take 4
          ++ List.replicate (4 - ((s.drop (4 * k)).take 4).length) 0x00#8).reverse) ∧
    (∀ j, j < (organize s).length →
      (organize s)[j]? = some (s.getD (4 * (j / 4) + 3 - j % 4) 0x00#8))

/-- R124: zero bytes that only fill the final group are invisible to Organize and the checksum; zero bytes that open
a new group change what Organize gives. -/
def Obligations.TrailingZerosInFinalGroup : Prop :=
  ∀ (s : List Byte) (k : Nat),
    (s.length % 4 ≠ 0 → s.length + k ≤ (s.length + 3) / 4 * 4 →
      organize (s ++ List.replicate k 0x00#8) = organize s ∧
      checksumOf (s ++ List.replicate k 0x00#8) = checksumOf s) ∧
    ((s.length + 3) / 4 * 4 < s.length + k → organize (s ++ List.replicate k 0x00#8) ≠ organize s)

/-- R116: one bit of the engine, bit by bit: every bit moves up one place, bit 0 becomes 0, and the polynomial is XORed in
exactly when the top bit was 1. -/
def Obligations.CrcBitStepBits : Prop :=
  (∀ (acc : Word) (k : Nat), k < 32 →
    (crcBitStep acc).getLsbD k =
      ((k != 0 && acc.getLsbD (k - 1)) ^^ (acc.getLsbD 31 && (0x04C11DB7#32).getLsbD k))) ∧
  crcBitStep 0xFFFFFFFF#32 = 0xFB3EE249#32

/-- R117, R118 and R119: the accumulator over the empty buffer and over one more byte, each byte in the top eight bits and
eight bit steps; nothing is applied at the end but the truncation of the checksum. -/
def Obligations.CrcAccumulatorFold : Prop :=
  crc32Acc [] = 0xFFFFFFFF#32 ∧
  (∀ (r : List Byte) (b : Byte),
    crc32Acc (r ++ [b]) =
      crcBitStep (crcBitStep (crcBitStep (crcBitStep (crcBitStep (crcBitStep (crcBitStep (crcBitStep
        (crc32Acc r ^^^ (b.setWidth 32 <<< 24)))))))))) ∧
  (∀ s : List Byte, checksumOf s = (crc32Acc (organize s)).extractLsb' 0 8)

/-- R122: feeding the input as little-endian 32-bit words, XORed in whole, gives the same accumulator as the byte
engine over the reordered bytes; the words are those of the zero-padded input, and the model's word-wide engine is
that engine. -/
def Obligations.WordAtATimeEquivalence : Prop :=
  ∀ s : List Byte,
    let s' := s ++ List.replicate ((4 - s.length % 4) % 4) 0x00#8
    let W : Nat → Word := fun k =>
      (s'.getD (4 * k) 0x00#8).setWidth 32 ||| (s'.getD (4 * k + 1) 0x00#8).setWidth 32 <<< 8 |||
      (s'.getD (4 * k + 2) 0x00#8).setWidth 32 <<< 16 ||| (s'.getD (4 * k + 3) 0x00#8).setWidth 32 <<< 24
    crc32Acc (organize s) =
      (List.range (s'.length / 4)).foldl (fun acc k => crcBitStep^[32] (acc ^^^ W k)) 0xFFFFFFFF#32 ∧
    groupWords s = (List.range (s'.length / 4)).map W ∧
    crc32Words (groupWords s) = crc32Acc (organize s)

/-- R121: the frame invariants. -/
def Obligations.FrameInvariants : Prop :=
  ∀ (dest src opts : Byte) (code : Half) (p : List Byte),
    let f := (buildFrame dest src opts code p).1
    let a := (buildFrame dest src opts code p).2
    let hp := (splitCode code).2.2
    (f[0]? = some 0x48#8 ∧ f[1]? = some 0x5A#8) ∧
    f[2]? = some (BitVec.ofNat 8 (f.length - 1 - 3)) ∧
    f.length = 8 + hp + p.length ∧
    (f[f.length - 1]? = some (checksumOf (f.take (f.length - 1))) ∧
      checksumOf (f.take (f.length - 1)) = a.extractLsb' 0 8) ∧
    (f.drop (7 + hp)).take p.length = p

/-- Worked values of 95_test_vectors.md: S4, S5, S7 and S8. -/
def Obligations.WorkedVectors : Prop :=
  organize [0x48#8, 0x5A#8, 0x04#8, 0x01#8] = [0x01#8, 0x04#8, 0x5A#8, 0x48#8] ∧
  organize [0x0A#8, 0x0B#8, 0x0C#8, 0x0D#8, 0x0E#8] =
    [0x0D#8, 0x0C#8, 0x0B#8, 0x0A#8, 0x00#8, 0x00#8, 0x00#8, 0x0E#8] ∧
  buildFrame 0x02#8 0x01#8 0x00#8 0x0001#16 [] =
    ([0x48#8, 0x5A#8, 0x04#8, 0x02#8, 0x01#8, 0x00#8, 0x01#8, 0xE3#8], 0x2C35A2E3#32) ∧
  checksumOf [] = 0xFF#8

/-! ## Commands (41_commands.md) -/

/-- R142: BUILD. A commit (R141) with its input cells written answers the next state in which OUT is the frame of R120, CRC32
its accumulator, CRC_BYTE the accumulator's low byte, ENG idle and DONE set, and nothing else has changed; and what
every command does at its accept and with unwritten input. -/
def Obligations.BuildCommand : Prop :=
  AcceptAndFaults .build 0x00000001#32 ∧
  ∀ (s : State) (p : List Byte), s.eng = .busy .build → s.holds p →
    exec .build s = .next { s with
      out := (buildFrame s.dest s.src s.options s.code p).1
      crc32 := (buildFrame s.dest s.src s.options s.code p).2
      crcByte := (buildFrame s.dest s.src s.options s.code p).2.extractLsb' 0 8
      eng := .idle
      done := true }

/-- R143: CHECKSUM. The commit writes CRC32 and CRC_BYTE over the organized input; OUT is not changed. -/
def Obligations.ChecksumCommand : Prop :=
  AcceptAndFaults .checksum 0x00000002#32 ∧
  ∀ (s : State) (p : List Byte), s.eng = .busy .checksum → s.holds p →
    exec .checksum s = .next { s with
      crc32 := crc32Acc (organize p)
      crcByte := (crc32Acc (organize p)).extractLsb' 0 8
      eng := .idle
      done := true }

/-- R144: ORGANIZE. The commit replaces OUT by the reordered input; CRC_BYTE and CRC32 are not changed. -/
def Obligations.OrganizeCommand : Prop :=
  AcceptAndFaults .organize 0x00000003#32 ∧
  ∀ (s : State) (p : List Byte), s.eng = .busy .organize → s.holds p →
    exec .organize s = .next { s with out := organize p, eng := .idle, done := true }

/-- R140 and R186: the CMD write, in the priority ERR_BUSY, ERR_CMD, ERR_LEN; exactly one bit changes, or the command
starts with DONE cleared and nothing else changed. -/
def Obligations.CmdWriteAccept : Prop :=
  ∀ (s : State) (w : Word),
    (∀ op, s.eng = .busy op → WriteGives s 0x000#14 w { s with errBusy := true }) ∧
    (s.eng = .idle → w ≠ 0x00000001#32 ∧ w ≠ 0x00000002#32 ∧ w ≠ 0x00000003#32 →
      WriteGives s 0x000#14 w { s with errCmd := true }) ∧
    (s.eng = .idle → w = 0x00000001#32 ∨ w = 0x00000002#32 ∨ w = 0x00000003#32 → 1024 < s.ilen.toNat →
      WriteGives s 0x000#14 w { s with errLen := true }) ∧
    (s.eng = .idle → s.ilen.toNat ≤ 1024 →
      (w = 0x00000001#32 → WriteGives s 0x000#14 w { s with done := false, eng := .busy .build }) ∧
      (w = 0x00000002#32 → WriteGives s 0x000#14 w { s with done := false, eng := .busy .checksum }) ∧
      (w = 0x00000003#32 → WriteGives s 0x000#14 w { s with done := false, eng := .busy .organize }))

/-- The frame of the three commands (R140 to R144, R148): when exec answers a next state, no operand register, enable,
input cell, schedule or trace has changed; OUT and the CRC registers change only at the commit of a command that writes
them; each STATUS bit changes only as its rule says. The last clause on ERR_BUSY is the model's totality of exec (log
entry 6): the step never runs a command while another is in progress. -/
def Obligations.CommandFrame : Prop :=
  ∀ (i : Instr) (s t : State), exec i s = .next t →
    (t.dest = s.dest ∧ t.src = s.src ∧ t.options = s.options ∧ t.code = s.code ∧ t.ilen = s.ilen ∧
      t.irqEn = s.irqEn ∧ t.errCmd = s.errCmd ∧ t.schedule = s.schedule ∧ t.trace = s.trace) ∧
    (∀ a, Memory.read t.ibuf a = Memory.read s.ibuf a) ∧
    (i = .checksum ∨ s.eng ≠ .busy i → t.out = s.out) ∧
    (i = .organize ∨ s.eng ≠ .busy i → t.crcByte = s.crcByte ∧ t.crc32 = s.crc32) ∧
    (t.errLen ≠ s.errLen → s.eng = .idle ∧ 1024 < s.ilen.toNat ∧ t.errLen = true) ∧
    (t.done ≠ s.done →
      (s.eng = .idle ∧ t.eng = .busy i ∧ t.done = false) ∨ (s.eng = .busy i ∧ t.eng = .idle ∧ t.done = true)) ∧
    (t.errBusy ≠ s.errBusy → ∃ op, op ≠ i ∧ s.eng = .busy op)

/-- The checksum of an empty input (R143, S8): ILEN = 0 gives CRC32 = 0xFFFFFFFF and CRC_BYTE = 0xFF. -/
def Obligations.EmptyInputChecksum : Prop :=
  ∀ s : State, s.eng = .busy .checksum → s.ilen = 0x0000#16 →
    exec .checksum s = .next { s with
      crc32 := 0xFFFFFFFF#32, crcByte := 0xFF#8, eng := .idle, done := true }

/-- The receive-side check (R121 item 4, R143): loading a frame that BUILD produced, without its last byte, and running
CHECKSUM gives the frame's last byte in CRC_BYTE and the frame's accumulator in CRC32. -/
def Obligations.ReceiveSideCheck : Prop :=
  ∀ s t u : State, s.eng = .busy .build → exec .build s = .next t →
    u.eng = .busy .checksum → u.holds (t.out.take (t.out.length - 1)) →
    ∃ v, exec .checksum u = .next v ∧ t.out[t.out.length - 1]? = some v.crcByte ∧
      v.crcByte = t.crcByte ∧ v.crc32 = t.crc32 ∧ v.out = u.out

/-! ## The step (00_scope.md R11, 20_memory.md R64) -/

/-- A step runs the decoded command (R24, R140): in an idle block, when the next move is a CMD write of a word that decodes to
`i`, the step is exec of `i` on the state in which the bus has carried that write. The second clause says the same of
`withFetchWord` (log entry 7). -/
def Obligations.StepRunsDecodedCommand : Prop :=
  (∀ (s : State) (w : Word) (i : Instr) (rest : List Move), s.eng = .idle →
    s.schedule = .host (.write 0x000#14 4 w) :: rest → decode w = .ok i →
    step s = exec i (s.carried rest ⟨.W, 0x000#14, w⟩)) ∧
  (∀ (s : State) (w : Nat) (i : Instr), w < 2 ^ 32 → decodeTableWord 32 w = some i →
    step (s.withFetchWord 32 w) =
      exec i (({ s with eng := .idle } : State).carried s.schedule ⟨.W, 0x000#14, BitVec.ofNat 32 w⟩))

/-- A step commits the accepted command (R141) when the engine has its turn, and an engine turn in an idle block does
nothing. A `WAIT` (R94) reads STATUS and stays while the block is busy, as many times as the schedule says; a busy block
commits once those reads are done, or when nothing more is scheduled: that is the model's weak fairness (R211, log
entries 2 and 4). That a run that has ended (R213) stays as it is, is log entry 3. -/
def Obligations.StepCommitsAcceptedCommand : Prop :=
  (∀ (s : State) (i : Instr) (rest : List Move), s.eng = .busy i →
    (s.schedule = .engine :: rest → step s = exec i { s with schedule := rest }) ∧
    (s.schedule = [] → step s = exec i s) ∧
    (s.schedule = .wait 0 :: rest → step s = exec i s) ∧
    (∀ n, s.schedule = .wait (n + 1) :: rest →
      step s = .next (s.carried (.wait n :: rest) ⟨.R, 0x004#14, statusWord s⟩))) ∧
  (∀ (s : State) (rest : List Move), s.eng = .idle →
    (s.schedule = .engine :: rest → step s = .next { s with schedule := rest }) ∧
    (s.ended → step s = .next s) ∧
    (∀ n, s.schedule = .wait n :: rest → step s = .next (s.carried rest ⟨.R, 0x004#14, statusWord s⟩)))

/-- R22: the transitions of ENG. A step moves IDLE to BUSY(op) only at a CMD write of op's word, BUSY(op) to IDLE only at op's
commit or a reset, and makes no other transition. -/
def Obligations.EngTransitions : Prop :=
  ∀ s t : State, step s = .next t →
    (∀ op, s.eng = .idle → t.eng = .busy op →
      ∃ rest, s.schedule = .host (.write 0x000#14 4 (encode op)) :: rest) ∧
    (∀ op, s.eng = .busy op → t.eng = .idle →
      (∃ rest, s.schedule = .reset :: rest) ∨ (∃ u : State, s.sameBlock u ∧ exec op u = .next t)) ∧
    (∀ op op', s.eng = .busy op → t.eng = .busy op' → op' = op)

/-- R38 and R65: while a command is in progress no step but a reset changes an input it reads. -/
def Obligations.InputsFixedWhileBusy : Prop :=
  ∀ (s t : State) (op : Instr), step s = .next t → s.eng = .busy op → (∀ rest, s.schedule ≠ .reset :: rest) →
    t.dest = s.dest ∧ t.src = s.src ∧ t.options = s.options ∧ t.code = s.code ∧ t.ilen = s.ilen ∧
    ∀ i, Memory.read t.ibuf i = Memory.read s.ibuf i

/-- R37, R148 and R174: OUT and the CRC registers change only at the commit of a command that writes them, or at reset. -/
def Obligations.ResultsChangeOnlyAtCommit : Prop :=
  ∀ s t : State, step s = .next t → (∀ rest, s.schedule ≠ .reset :: rest) →
    (t.out ≠ s.out → (s.eng = .busy .build ∨ s.eng = .busy .organize) ∧ t.eng = .idle ∧ t.done = true) ∧
    (t.crc32 ≠ s.crc32 ∨ t.crcByte ≠ s.crcByte →
      (s.eng = .busy .build ∨ s.eng = .busy .checksum) ∧ t.eng = .idle ∧ t.done = true)

/-- R36 and R170: an input cell changes only by a host write to its own window entry while idle, or by reset. -/
def Obligations.InputCellsChangeOnlyByHostWrite : Prop :=
  ∀ (s t : State) (i : Nat), step s = .next t → Memory.read t.ibuf i ≠ Memory.read s.ibuf i →
    (∃ rest, s.schedule = .reset :: rest) ∨
    (∃ d rest, s.schedule = .host (.write (BitVec.ofNat 14 (0x1000 + 4 * i)) 4 d) :: rest ∧ s.eng = .idle ∧
      i < 1024 ∧ Memory.read t.ibuf i = some (d.setWidth 8))

/-! ## Bus accesses (20_memory.md, 42_bus_access.md) -/

/-- R53 and R54: any other access width, or a misaligned access, is the model fault UnsupportedAccess. -/
def Obligations.UnsupportedAccessFaults : Prop :=
  ∀ (s : State) (off : Offset) (size : Nat) (d : Word) (rest : List Move),
    size ≠ 4 ∨ off.extractLsb' 0 2 ≠ 0b00#2 →
    step { s with schedule := .host (.read off size) :: rest } = .fault (.unsupportedAccess off size) ∧
    step { s with schedule := .host (.write off size d) :: rest } = .fault (.unsupportedAccess off size)

/-- R160, R163 and R56: what a read returns at every offset, in every state; a read changes nothing of the block. -/
def Obligations.ReadAtEveryOffset : Prop :=
  ∀ s : State,
    ReadReturns s 0x000#14 0x00000000#32 ∧
    ReadReturns s 0x004#14
      ((BitVec.ofBool s.errBusy ++ BitVec.ofBool s.errLen ++ BitVec.ofBool s.errCmd ++ BitVec.ofBool s.done
        ++ BitVec.ofBool (decide (s.eng ≠ .idle))).setWidth 32) ∧
    ReadReturns s 0x008#14 (s.irqEn.setWidth 32) ∧
    ReadReturns s 0x00C#14 (s.dest.setWidth 32) ∧
    ReadReturns s 0x010#14 (s.src.setWidth 32) ∧
    ReadReturns s 0x014#14 (s.options.setWidth 32) ∧
    ReadReturns s 0x018#14 (s.code.setWidth 32) ∧
    ReadReturns s 0x01C#14 (s.ilen.setWidth 32) ∧
    ReadReturns s 0x020#14 (BitVec.ofNat 32 s.out.length) ∧
    ReadReturns s 0x024#14 (s.crcByte.setWidth 32) ∧
    ReadReturns s 0x028#14 s.crc32 ∧
    ReadReturns s 0x02C#14 0x00000400#32 ∧
    (∀ off : Offset, off.toNat % 4 = 0 → 0x0030 ≤ off.toNat → off.toNat < 0x1000 →
      ReadReturns s off 0x00000000#32) ∧
    (∀ i, i < 1024 →
      (∀ b, Memory.read s.ibuf i = some b → ReadReturns s (BitVec.ofNat 14 (0x1000 + 4 * i)) (b.setWidth 32)) ∧
      (Memory.read s.ibuf i = none → ∀ rest,
        step { s with schedule := .host (.read (BitVec.ofNat 14 (0x1000 + 4 * i)) 4) :: rest }
          = .fault (.unwrittenRead i))) ∧
    (∀ i, i < 2048 →
      ReadReturns s (BitVec.ofNat 14 (0x2000 + 4 * i)) ((s.out.getD i 0x00#8).setWidth 32)) ∧
    (∀ (off : Offset) (size : Nat) (rest : List Move), size ≠ 4 ∨ off.extractLsb' 0 2 ≠ 0b00#2 →
      step { s with schedule := .host (.read off size) :: rest } = .fault (.unsupportedAccess off size))

/-- R173: the busy gate. While busy, a write to an input of a command is dropped and sets ERR_BUSY; while idle it stores the
low bits of the data in its own target and nothing else; and a write to any other offset never sets ERR_BUSY. -/
def Obligations.BusyGateOnInputs : Prop :=
  ∀ (s : State) (d : Word),
    (∀ op, s.eng = .busy op →
      (∀ off ∈ [0x000#14, 0x00C#14, 0x010#14, 0x014#14, 0x018#14, 0x01C#14],
        WriteGives s off d { s with errBusy := true }) ∧
      (∀ i, i < 1024 → WriteGives s (BitVec.ofNat 14 (0x1000 + 4 * i)) d { s with errBusy := true })) ∧
    (s.eng = .idle →
      WriteGives s 0x00C#14 d { s with dest := d.extractLsb' 0 8 } ∧
      WriteGives s 0x010#14 d { s with src := d.extractLsb' 0 8 } ∧
      WriteGives s 0x014#14 d { s with options := d.extractLsb' 0 8 } ∧
      WriteGives s 0x018#14 d { s with code := d.extractLsb' 0 16 } ∧
      WriteGives s 0x01C#14 d { s with ilen := d.extractLsb' 0 16 } ∧
      (∀ i, i < 1024 → WriteGives s (BitVec.ofNat 14 (0x1000 + 4 * i)) d
        { s with ibuf := Memory.write s.ibuf i (d.extractLsb' 0 8) })) ∧
    (∀ off : Offset, off ∉ [0x000#14, 0x00C#14, 0x010#14, 0x014#14, 0x018#14, 0x01C#14] →
      off.toNat < 0x1000 ∨ 0x2000 ≤ off.toNat →
      ∀ t, memWrite off 4 d s = .next t → t.errBusy = true → s.errBusy = true)

/-- R164: STATUS. Each bit of the value read, and the write that clears bits 1 to 4, in every ENG state. -/
def Obligations.StatusReadAndW1C : Prop :=
  ∀ (s : State) (d : Word),
    (∃ v, ReadReturns s 0x004#14 v ∧ (v.getLsbD 0 = true ↔ s.eng ≠ .idle) ∧ v.getLsbD 1 = s.done ∧
      v.getLsbD 2 = s.errCmd ∧ v.getLsbD 3 = s.errLen ∧ v.getLsbD 4 = s.errBusy ∧
      ∀ k, 5 ≤ k → v.getLsbD k = false) ∧
    WriteGives s 0x004#14 d { s with
      done := if d.getLsbD 1 = true then false else s.done
      errCmd := if d.getLsbD 2 = true then false else s.errCmd
      errLen := if d.getLsbD 3 = true then false else s.errLen
      errBusy := if d.getLsbD 4 = true then false else s.errBusy }

/-- R165: IRQ_EN is read and written in every ENG state, never sets ERR_BUSY, and acts on `irq` at once. -/
def Obligations.IrqEnableReadWrite : Prop :=
  ∀ (s : State) (d : Word),
    ReadReturns s 0x008#14 (s.irqEn.setWidth 32) ∧
    WriteGives s 0x008#14 d { s with irqEn := d.extractLsb' 0 2 } ∧
    irq { s with irqEn := d.extractLsb' 0 2 } =
      ((s.done && d.getLsbD 0) || ((s.errCmd || s.errLen || s.errBusy) && d.getLsbD 1))

/-- R169: the read-only registers OLEN, CRC_BYTE, CRC32 and CAPS. -/
def Obligations.ReadOnlyRegisters : Prop :=
  ∀ (s : State) (d : Word),
    ReadReturns s 0x020#14 (BitVec.ofNat 32 s.out.length) ∧
    ReadReturns s 0x024#14 (s.crcByte.setWidth 32) ∧
    ReadReturns s 0x028#14 s.crc32 ∧
    ReadReturns s 0x02C#14 0x00000400#32 ∧
    ∀ off ∈ [0x020#14, 0x024#14, 0x028#14, 0x02C#14], WriteGives s off d s

/-- R61: reserved offsets and the unused bits of every register read as zero and ignore writes. The premise is the invariant
`len(OUT) <= MAX_FRAME` (R37), which keeps OLEN within its 16 bits. -/
def Obligations.ReservedReadsZeroWritesIgnored : Prop :=
  ∀ (s : State), s.out.length ≤ 1033 →
    (∀ (off : Offset) (d : Word), off.toNat % 4 = 0 → 0x0030 ≤ off.toNat → off.toNat ≤ 0x0FFC →
      ReadReturns s off 0x00000000#32 ∧ WriteGives s off d s) ∧
    (∀ (r : Reg) (k : Nat) (v : Word), regBits r ≤ k → memRead (regOffset r) 4 s = .ok v →
      v.getLsbD k = false) ∧
    (∀ (r : Reg) (d d' : Word), (∀ k, k < regBits r → d.getLsbD k = d'.getLsbD k) →
      memWrite (regOffset r) 4 d s = memWrite (regOffset r) 4 d' s)

/-- R170: the IBUF window. A write while idle makes its entry read the low byte of the data and leaves every other cell as
it was; reading an unwritten cell is the fault UnwrittenRead; no command changes a cell. -/
def Obligations.IbufWindow : Prop :=
  (∀ (s : State) (i : Nat) (d : Word) (rest : List Move), s.eng = .idle → i < 1024 →
    ∃ t, step { s with schedule := .host (.write (BitVec.ofNat 14 (0x1000 + 4 * i)) 4 d) :: rest } = .next t ∧
      ReadReturns t (BitVec.ofNat 14 (0x1000 + 4 * i)) ((d.extractLsb' 0 8).setWidth 32) ∧
      (∀ k, k ≠ i → Memory.read t.ibuf k = Memory.read s.ibuf k) ∧
      t = { s with
        ibuf := t.ibuf, schedule := rest
        trace := ⟨.W, BitVec.ofNat 14 (0x1000 + 4 * i), d⟩ :: s.trace }) ∧
  (∀ (s : State) (i : Nat) (rest : List Move), i < 1024 → Memory.read s.ibuf i = none →
    step { s with schedule := .host (.read (BitVec.ofNat 14 (0x1000 + 4 * i)) 4) :: rest }
      = .fault (.unwrittenRead i)) ∧
  (∀ (c : Instr) (s t : State), exec c s = .next t → t.ibuf = s.ibuf)

/-- R171: the OBUF window. Entries below OLEN read the byte of OUT, entries from OLEN on read 0, writes have no effect, and
under the invariant `len(OUT) <= MAX_FRAME` (R37) entries 1033 to 2047 always read 0. -/
def Obligations.ObufWindow : Prop :=
  ∀ (s : State) (i : Nat) (d : Word), i < 2048 →
    (∀ b, s.out[i]? = some b → ReadReturns s (BitVec.ofNat 14 (0x2000 + 4 * i)) (b.setWidth 32)) ∧
    (s.out.length ≤ i → ReadReturns s (BitVec.ofNat 14 (0x2000 + 4 * i)) 0x00000000#32) ∧
    (s.out.length ≤ 1033 → 1033 ≤ i → ReadReturns s (BitVec.ofNat 14 (0x2000 + 4 * i)) 0x00000000#32) ∧
    WriteGives s (BitVec.ofNat 14 (0x2000 + 4 * i)) d s

/-- R51: the address map: what every aligned offset of the window names. No offset is undecoded. -/
def Obligations.AddressMap : Prop :=
  ∀ off : Offset, off.toNat % 4 = 0 →
    (off.toNat < 0x0030 → ∃ r, region off = .reg r ∧ regOffset r = off) ∧
    (0x0030 ≤ off.toNat → off.toNat < 0x1000 → region off = .reserved) ∧
    (0x1000 ≤ off.toNat → off.toNat < 0x2000 →
      ∃ i, i < 1024 ∧ region off = .ibuf i ∧ off.toNat = 0x1000 + 4 * i) ∧
    (0x2000 ≤ off.toNat → ∃ i, i < 2048 ∧ region off = .obuf i ∧ off.toNat = 0x2000 + 4 * i)

/-- R50 and R52: for every BLOCK_BASE, a multiple of 0x4000, the bus addresses of the window are those from
BLOCK_BASE on; an access outside it is not one to FACRC and brings no move. -/
def Obligations.BusWindow : Prop :=
  Config.blockBase % 0x4000 = 0 ∧
  (∀ off : Offset, busSelect (Config.blockBase + off.toNat) = some off) ∧
  (∀ (addr size : Nat) (d : Word), addr < Config.blockBase ∨ Config.blockBase + 0x4000 ≤ addr →
    busRead addr size = [] ∧ busWrite addr size d = [])

/-- R56: every write but a CMD write is idempotent; the same CMD write repeated while its command is busy sets
ERR_BUSY. -/
def Obligations.WritesIdempotentExceptCmd : Prop :=
  (∀ (s t : State) (off : Offset) (d : Word), off ≠ 0x000#14 →
    memWrite off 4 d s = .next t → memWrite off 4 d t = .next t) ∧
  (∀ (s : State) (i : Instr), s.eng = .idle → s.ilen.toNat ≤ 1024 →
    ∃ t, memWrite 0x000#14 4 (encode i) s = .next t ∧
      memWrite 0x000#14 4 (encode i) t = .next { t with errBusy := true } ∧ t.eng = .busy i)

/-! ## Errors, interrupt, reset and whole-machine rules (60_exceptions.md, 70_reset_and_hazards.md) -/

/-- R39: the interrupt output. -/
def Obligations.IrqLevel : Prop :=
  ∀ s : State, irq s = true ↔
    (s.done = true ∧ s.irqEn.getLsbD 0 = true) ∨
    ((s.errCmd = true ∨ s.errLen = true ∨ s.errBusy = true) ∧ s.irqEn.getLsbD 1 = true)

/-- R181: an error bit is set only by its own cause, a write to its own offsets in the ENG state its row names; a commit sets
none. -/
def Obligations.ErrorBitCauses : Prop :=
  ∀ s t : State, step s = .next t →
    (s.errCmd = false → t.errCmd = true → s.eng = .idle ∧
      ∃ w rest, s.schedule = .host (.write 0x000#14 4 w) :: rest ∧ ∀ i, decode w ≠ .ok i) ∧
    (s.errLen = false → t.errLen = true → s.eng = .idle ∧ 1024 < s.ilen.toNat ∧
      ∃ i rest, s.schedule = .host (.write 0x000#14 4 (encode i)) :: rest) ∧
    (s.errBusy = false → t.errBusy = true → s.eng ≠ .idle ∧
      ∃ off d rest, s.schedule = .host (.write off 4 d) :: rest ∧
        (off ∈ [0x000#14, 0x00C#14, 0x010#14, 0x014#14, 0x018#14, 0x01C#14] ∨
          (0x1000 ≤ off.toNat ∧ off.toNat < 0x2000)))

/-- R185: a pending bit is cleared only by a write of 1 to it in STATUS or by reset; DONE also by the accept of a valid
command. -/
def Obligations.PendingBitsClearedOnlyBy : Prop :=
  ∀ s t : State, step s = .next t → (∀ rest, s.schedule ≠ .reset :: rest) →
    (s.errCmd = true → t.errCmd = false →
      ∃ d rest, s.schedule = .host (.write 0x004#14 4 d) :: rest ∧ d.getLsbD 2 = true) ∧
    (s.errLen = true → t.errLen = false →
      ∃ d rest, s.schedule = .host (.write 0x004#14 4 d) :: rest ∧ d.getLsbD 3 = true) ∧
    (s.errBusy = true → t.errBusy = false →
      ∃ d rest, s.schedule = .host (.write 0x004#14 4 d) :: rest ∧ d.getLsbD 4 = true) ∧
    (s.done = true → t.done = false →
      (∃ d rest, s.schedule = .host (.write 0x004#14 4 d) :: rest ∧ d.getLsbD 1 = true) ∨
      (∃ i rest, s.schedule = .host (.write 0x000#14 4 (encode i)) :: rest ∧ s.eng = .idle ∧
        s.ilen.toNat ≤ 1024))

/-- R200 and R201: a reset, in any ENG state, sets every element of R20 to its reset value and cancels a running command.
The model's own schedule and trace go on (log entries 1 and 5). -/
def Obligations.ResetSetsEveryElement : Prop :=
  ∀ (s : State) (rest : List Move), s.schedule = .reset :: rest →
    step s = .next { State.reset with schedule := rest, trace := s.trace }

/-- R41: the value of every element after reset, and of what the host reads of it. -/
def Obligations.ResetValues : Prop :=
  State.reset.eng = .idle ∧
  (State.reset.done = false ∧ State.reset.errCmd = false ∧ State.reset.errLen = false ∧
    State.reset.errBusy = false ∧ ReadReturns State.reset 0x004#14 0x00000000#32) ∧
  State.reset.irqEn = 0b00#2 ∧
  (State.reset.dest = 0x00#8 ∧ State.reset.src = 0x00#8 ∧ State.reset.options = 0x00#8) ∧
  State.reset.code = 0x0000#16 ∧
  State.reset.ilen = 0x0000#16 ∧
  (State.reset.out = [] ∧ ReadReturns State.reset 0x020#14 0x00000000#32 ∧
    ∀ i, i < 2048 → ReadReturns State.reset (BitVec.ofNat 14 (0x2000 + 4 * i)) 0x00000000#32) ∧
  State.reset.crcByte = 0x00#8 ∧
  State.reset.crc32 = 0x00000000#32 ∧
  ReadReturns State.reset 0x02C#14 0x00000400#32 ∧
  (∀ i, Memory.read State.reset.ibuf i = none) ∧
  irq State.reset = false

/-- The invariant of the block holds right after reset. -/
def Obligations.ResetMeetsBlockInvariant : Prop := State.reset.Inv

/-- Every step keeps the invariant of the block: the input cells stay in canonical form and in range, OUT stays within
MAX_FRAME (R37), CRC_BYTE stays the low byte of CRC32 (R34), and a command in progress passed the capacity check with
DONE clear (R25, R140). -/
def Obligations.StepKeepsBlockInvariant : Prop :=
  ∀ s t : State, s.Inv → step s = .next t → t.Inv

/-- R38 and R65: a command's results are fixed at its accept. Whatever accesses the host makes between the accept and the
commit, the commit gives the OUT, CRC32 and CRC_BYTE that an immediate commit would have given; until then the host
sees the previous results. -/
def Obligations.ResultsFixedAtAccept : Prop :=
  ∀ (s u v : State) (i : Instr) (accesses : List Access), s.eng = .busy i →
    run accesses.length { s with schedule := accesses.map Move.host ++ [.engine] } = .next u →
    exec i s = .next v →
    (u.out = s.out ∧ u.crc32 = s.crc32 ∧ u.crcByte = s.crcByte ∧ u.eng = .busy i) ∧
    ∃ t, step u = .next t ∧ t.out = v.out ∧ t.crc32 = v.crc32 ∧ t.crcByte = v.crcByte ∧
      t.eng = .idle ∧ t.done = true

/-- R211 (weak fairness as the model has it, log entries 2 and 4): while a command is in progress and no reset is asserted,
the commit happens within one step more than the schedule has turns (each poll of a `WAIT` is one), if no access faults and the input cells are
written. -/
def Obligations.AcceptedCommandCommits : Prop :=
  ∀ (s : State) (i : Instr), s.eng = .busy i → s.inputWritten →
    (∀ m ∈ s.schedule, m ≠ .reset ∧ ∀ a, m = .host a → accessHarmless a) →
    ∃ n t, n ≤ turns s.schedule + 1 ∧ run n s = .next t ∧ t.eng = .idle ∧ t.done = true

/-- R94, the expansion of LOADIN: run from an idle block it leaves the values' low bytes in the first cells, their number in
ILEN, and everything else as it was. -/
def Obligations.LoadinLoadsCells : Prop :=
  ∀ (s : State) (polls : Nat) (values : List Word) (rest : List Move), s.eng = .idle → values.length ≤ 1024 →
    s.schedule = lineMoves polls (.loadin values) ++ rest →
    ∃ t, run (values.length + 1) s = .next t ∧
      (∀ k v, values[k]? = some v → Memory.read t.ibuf k = some (v.extractLsb' 0 8)) ∧
      (∀ k, values.length ≤ k → Memory.read t.ibuf k = Memory.read s.ibuf k) ∧
      t = { s with
        ilen := BitVec.ofNat 16 values.length, ibuf := t.ibuf, schedule := rest, trace := t.trace }

/-- R94, the expansion of WAIT: repeated STATUS reads until BUSY reads 0. While a command is in progress, `WAIT` with `n`
early polls does `n` reads that return BUSY = 1, the commit, and one read that returns BUSY = 0, and goes on with what
is scheduled after it; that is the run of those very reads with the engine's turn before the last one. In an idle
block, and after a reset that comes before the `WAIT`, one read ends it. How many polls find the block busy is open
(R211); that a `WAIT` carries the number is the model's choice (log entry 4). -/
def Obligations.WaitPollsUntilIdle : Prop :=
  (∀ (s v : State) (i : Instr) (n : Nat) (rest : List Move), s.eng = .busy i → s.schedule = .wait n :: rest →
    exec i s = .next v →
    let poll : Move := .host (.read 0x004#14 4)
    let t : State := { v with
      schedule := rest
      trace := ⟨.R, 0x004#14, statusWord v⟩ :: (List.replicate n ⟨.R, 0x004#14, statusWord s⟩ ++ s.trace) }
    (statusWord s).getLsbD 0 = true ∧ (statusWord v).getLsbD 0 = false ∧
    run (n + 2) s = .next t ∧
    run (n + 2) { s with schedule := List.replicate n poll ++ .engine :: poll :: rest } = .next t) ∧
  (∀ (s : State) (n : Nat) (rest : List Move), s.eng = .idle → s.schedule = .wait n :: rest →
    (statusWord s).getLsbD 0 = false ∧
    run 1 s = .next (s.carried rest ⟨.R, 0x004#14, statusWord s⟩)) ∧
  (∀ (s : State) (n : Nat) (rest : List Move), s.schedule = .reset :: .wait n :: rest →
    run 2 s = .next { State.reset with
      schedule := rest, trace := ⟨.R, 0x004#14, 0x00000000#32⟩ :: s.trace })
end

