-- ==== Sys2Proof/Laws/Datapath.lean ====
section
/-! SUPPORT. The lengths of the datapath's sequences, and the frame as one list. -/

namespace Sys2Proof.Machine

theorem length_organize (s : List Byte) : (organize s).length = (s.length + 3) / 4 * 4 := by
  induction s using organize.induct with
  | case1 => rfl
  | case2 => simp [organize]
  | case3 => simp [organize]
  | case4 => simp [organize]
  | case5 a b c d rest ih => simp [organize, ih]; omega

/-- Organize, one group at a time (R114, R115). -/
theorem organize_group (s : List Byte) (h : s ≠ []) :
    organize s = (s.take 4 ++ List.replicate (4 - (s.take 4).length) 0x00#8).reverse
      ++ organize (s.drop 4) := by
  match s with
  | [] => exact absurd rfl h
  | [_] => simp [organize, List.replicate]
  | [_, _] => simp [organize, List.replicate]
  | [_, _, _] => simp [organize]
  | _ :: _ :: _ :: _ :: _ => simp [organize]

/-- The mask 0xFF keeps exactly the low eight bits. -/
theorem maskFF_getElem (i : Nat) (h : i < 8) : (0xFF#8)[i] = true :=
  (by decide : ∀ i (h : i < 8), (0xFF#8)[i] = true) i h

theorem codeLo_eq (c : Half) : codeLo c = c.extractLsb' 0 8 := by
  unfold codeLo
  ext i hi
  rw [show (0xFF#16 : Half) = BitVec.setWidth 16 (BitVec.allOnes 8) by decide]
  simp
  exact fun _ => maskFF_getElem i hi

theorem codeHi_eq (c : Half) : codeHi c = c.extractLsb' 8 8 := by
  unfold codeHi
  ext i hi
  rw [show (0xFF#16 : Half) = BitVec.setWidth 16 (BitVec.allOnes 8) by decide]
  simp
  exact fun _ => maskFF_getElem i hi

theorem codeHp_le (code : Half) : codeHp code ≤ 1 := by
  unfold codeHp; split <;> omega

theorem length_assembleBody (d s o : Byte) (c : Half) (p : List Byte) :
    (assembleBody d s o c p).length = 7 + codeHp c + p.length := by
  have := codeHp_le c
  simp only [assembleBody, splitCode]
  by_cases h : codeHp c = 1 <;> simp [h] <;> omega

@[simp] theorem length_fixLength (b : List Byte) : (fixLength b).length = b.length := by
  simp [fixLength]

theorem length_frameBody (d s o : Byte) (c : Half) (p : List Byte) :
    (frameBody d s o c p).length = 7 + codeHp c + p.length := by
  simp [frameBody, length_assembleBody]

theorem length_buildFrame (d s o : Byte) (c : Half) (p : List Byte) :
    (buildFrame d s o c p).1.length = 8 + codeHp c + p.length := by
  simp [buildFrame, length_frameBody]; omega

/-- The body of a frame, field by field (R84 to R86). -/
theorem frameBody_eq (d s o : Byte) (c : Half) (p : List Byte) :
    frameBody d s o c p =
      [Config.sof1, Config.sof2, BitVec.ofNat 8 (4 + codeHp c + p.length), d, s, o, codeLo c]
        ++ (if codeHp c = 1 then [codeHi c] else []) ++ p := by
  have hl := length_assembleBody d s o c p
  unfold frameBody fixLength
  rw [hl]
  have e : 7 + codeHp c + p.length - 3 = 4 + codeHp c + p.length := by omega
  rw [e]
  by_cases h : codeHp c = 1 <;> simp [assembleBody, splitCode, h]

@[simp] theorem buildFrame_snd (d s o : Byte) (c : Half) (p : List Byte) :
    (buildFrame d s o c p).2 = crc32Acc (organize (frameBody d s o c p)) := rfl

@[simp] theorem buildFrame_fst (d s o : Byte) (c : Half) (p : List Byte) :
    (buildFrame d s o c p).1 = frameBody d s o c p ++ [checksumOf (frameBody d s o c p)] := rfl

@[simp] theorem crc32Acc_nil : crc32Acc [] = Config.crcInit := rfl

theorem crc32Acc_append (r t : List Byte) : crc32Acc (r ++ t) = t.foldl crcByteStep (crc32Acc r) := by
  simp [crc32Acc]

end Sys2Proof.Machine
end

