-- ==== Sys2Proof/Laws/State.lean ====
section
/-! SUPPORT. One lemma per field of State for each named update, so that no proof unfolds an update. -/

namespace Sys2Proof.Machine

variable (s : State)

@[simp] theorem State.setErrCmd_eng : s.setErrCmd.eng = s.eng := rfl
@[simp] theorem State.setErrCmd_done : s.setErrCmd.done = s.done := rfl
@[simp] theorem State.setErrCmd_errCmd : s.setErrCmd.errCmd = true := rfl
@[simp] theorem State.setErrCmd_errLen : s.setErrCmd.errLen = s.errLen := rfl
@[simp] theorem State.setErrCmd_errBusy : s.setErrCmd.errBusy = s.errBusy := rfl
@[simp] theorem State.setErrCmd_irqEn : s.setErrCmd.irqEn = s.irqEn := rfl
@[simp] theorem State.setErrCmd_dest : s.setErrCmd.dest = s.dest := rfl
@[simp] theorem State.setErrCmd_src : s.setErrCmd.src = s.src := rfl
@[simp] theorem State.setErrCmd_options : s.setErrCmd.options = s.options := rfl
@[simp] theorem State.setErrCmd_code : s.setErrCmd.code = s.code := rfl
@[simp] theorem State.setErrCmd_ilen : s.setErrCmd.ilen = s.ilen := rfl
@[simp] theorem State.setErrCmd_out : s.setErrCmd.out = s.out := rfl
@[simp] theorem State.setErrCmd_crcByte : s.setErrCmd.crcByte = s.crcByte := rfl
@[simp] theorem State.setErrCmd_crc32 : s.setErrCmd.crc32 = s.crc32 := rfl
@[simp] theorem State.setErrCmd_ibuf : s.setErrCmd.ibuf = s.ibuf := rfl
@[simp] theorem State.setErrCmd_schedule : s.setErrCmd.schedule = s.schedule := rfl
@[simp] theorem State.setErrCmd_trace : s.setErrCmd.trace = s.trace := rfl

@[simp] theorem State.setErrLen_eng : s.setErrLen.eng = s.eng := rfl
@[simp] theorem State.setErrLen_done : s.setErrLen.done = s.done := rfl
@[simp] theorem State.setErrLen_errCmd : s.setErrLen.errCmd = s.errCmd := rfl
@[simp] theorem State.setErrLen_errLen : s.setErrLen.errLen = true := rfl
@[simp] theorem State.setErrLen_errBusy : s.setErrLen.errBusy = s.errBusy := rfl
@[simp] theorem State.setErrLen_irqEn : s.setErrLen.irqEn = s.irqEn := rfl
@[simp] theorem State.setErrLen_dest : s.setErrLen.dest = s.dest := rfl
@[simp] theorem State.setErrLen_src : s.setErrLen.src = s.src := rfl
@[simp] theorem State.setErrLen_options : s.setErrLen.options = s.options := rfl
@[simp] theorem State.setErrLen_code : s.setErrLen.code = s.code := rfl
@[simp] theorem State.setErrLen_ilen : s.setErrLen.ilen = s.ilen := rfl
@[simp] theorem State.setErrLen_out : s.setErrLen.out = s.out := rfl
@[simp] theorem State.setErrLen_crcByte : s.setErrLen.crcByte = s.crcByte := rfl
@[simp] theorem State.setErrLen_crc32 : s.setErrLen.crc32 = s.crc32 := rfl
@[simp] theorem State.setErrLen_ibuf : s.setErrLen.ibuf = s.ibuf := rfl
@[simp] theorem State.setErrLen_schedule : s.setErrLen.schedule = s.schedule := rfl
@[simp] theorem State.setErrLen_trace : s.setErrLen.trace = s.trace := rfl

@[simp] theorem State.setErrBusy_eng : s.setErrBusy.eng = s.eng := rfl
@[simp] theorem State.setErrBusy_done : s.setErrBusy.done = s.done := rfl
@[simp] theorem State.setErrBusy_errCmd : s.setErrBusy.errCmd = s.errCmd := rfl
@[simp] theorem State.setErrBusy_errLen : s.setErrBusy.errLen = s.errLen := rfl
@[simp] theorem State.setErrBusy_errBusy : s.setErrBusy.errBusy = true := rfl
@[simp] theorem State.setErrBusy_irqEn : s.setErrBusy.irqEn = s.irqEn := rfl
@[simp] theorem State.setErrBusy_dest : s.setErrBusy.dest = s.dest := rfl
@[simp] theorem State.setErrBusy_src : s.setErrBusy.src = s.src := rfl
@[simp] theorem State.setErrBusy_options : s.setErrBusy.options = s.options := rfl
@[simp] theorem State.setErrBusy_code : s.setErrBusy.code = s.code := rfl
@[simp] theorem State.setErrBusy_ilen : s.setErrBusy.ilen = s.ilen := rfl
@[simp] theorem State.setErrBusy_out : s.setErrBusy.out = s.out := rfl
@[simp] theorem State.setErrBusy_crcByte : s.setErrBusy.crcByte = s.crcByte := rfl
@[simp] theorem State.setErrBusy_crc32 : s.setErrBusy.crc32 = s.crc32 := rfl
@[simp] theorem State.setErrBusy_ibuf : s.setErrBusy.ibuf = s.ibuf := rfl
@[simp] theorem State.setErrBusy_schedule : s.setErrBusy.schedule = s.schedule := rfl
@[simp] theorem State.setErrBusy_trace : s.setErrBusy.trace = s.trace := rfl

@[simp] theorem State.record_eng (c : BusCycle) : (s.record c).eng = s.eng := rfl
@[simp] theorem State.record_done (c : BusCycle) : (s.record c).done = s.done := rfl
@[simp] theorem State.record_errCmd (c : BusCycle) : (s.record c).errCmd = s.errCmd := rfl
@[simp] theorem State.record_errLen (c : BusCycle) : (s.record c).errLen = s.errLen := rfl
@[simp] theorem State.record_errBusy (c : BusCycle) : (s.record c).errBusy = s.errBusy := rfl
@[simp] theorem State.record_irqEn (c : BusCycle) : (s.record c).irqEn = s.irqEn := rfl
@[simp] theorem State.record_dest (c : BusCycle) : (s.record c).dest = s.dest := rfl
@[simp] theorem State.record_src (c : BusCycle) : (s.record c).src = s.src := rfl
@[simp] theorem State.record_options (c : BusCycle) : (s.record c).options = s.options := rfl
@[simp] theorem State.record_code (c : BusCycle) : (s.record c).code = s.code := rfl
@[simp] theorem State.record_ilen (c : BusCycle) : (s.record c).ilen = s.ilen := rfl
@[simp] theorem State.record_out (c : BusCycle) : (s.record c).out = s.out := rfl
@[simp] theorem State.record_crcByte (c : BusCycle) : (s.record c).crcByte = s.crcByte := rfl
@[simp] theorem State.record_crc32 (c : BusCycle) : (s.record c).crc32 = s.crc32 := rfl
@[simp] theorem State.record_ibuf (c : BusCycle) : (s.record c).ibuf = s.ibuf := rfl
@[simp] theorem State.record_schedule (c : BusCycle) : (s.record c).schedule = s.schedule := rfl
@[simp] theorem State.record_trace (c : BusCycle) : (s.record c).trace = c :: s.trace := rfl

@[simp] theorem resetBlock_eng : (resetBlock s).eng = State.reset.eng := rfl
@[simp] theorem resetBlock_done : (resetBlock s).done = State.reset.done := rfl
@[simp] theorem resetBlock_errCmd : (resetBlock s).errCmd = State.reset.errCmd := rfl
@[simp] theorem resetBlock_errLen : (resetBlock s).errLen = State.reset.errLen := rfl
@[simp] theorem resetBlock_errBusy : (resetBlock s).errBusy = State.reset.errBusy := rfl
@[simp] theorem resetBlock_irqEn : (resetBlock s).irqEn = State.reset.irqEn := rfl
@[simp] theorem resetBlock_dest : (resetBlock s).dest = State.reset.dest := rfl
@[simp] theorem resetBlock_src : (resetBlock s).src = State.reset.src := rfl
@[simp] theorem resetBlock_options : (resetBlock s).options = State.reset.options := rfl
@[simp] theorem resetBlock_code : (resetBlock s).code = State.reset.code := rfl
@[simp] theorem resetBlock_ilen : (resetBlock s).ilen = State.reset.ilen := rfl
@[simp] theorem resetBlock_out : (resetBlock s).out = State.reset.out := rfl
@[simp] theorem resetBlock_crcByte : (resetBlock s).crcByte = State.reset.crcByte := rfl
@[simp] theorem resetBlock_crc32 : (resetBlock s).crc32 = State.reset.crc32 := rfl
@[simp] theorem resetBlock_ibuf : (resetBlock s).ibuf = State.reset.ibuf := rfl
@[simp] theorem resetBlock_schedule : (resetBlock s).schedule = s.schedule := rfl
@[simp] theorem resetBlock_trace : (resetBlock s).trace = s.trace := rfl

@[simp] theorem statusW1C_eng (d : Word) : (statusW1C d s).eng = s.eng := rfl
@[simp] theorem statusW1C_done (d : Word) : (statusW1C d s).done = (s.done && !d.getLsbD 1) := rfl
@[simp] theorem statusW1C_errCmd (d : Word) : (statusW1C d s).errCmd = (s.errCmd && !d.getLsbD 2) := rfl
@[simp] theorem statusW1C_errLen (d : Word) : (statusW1C d s).errLen = (s.errLen && !d.getLsbD 3) := rfl
@[simp] theorem statusW1C_errBusy (d : Word) : (statusW1C d s).errBusy = (s.errBusy && !d.getLsbD 4) := rfl
@[simp] theorem statusW1C_irqEn (d : Word) : (statusW1C d s).irqEn = s.irqEn := rfl
@[simp] theorem statusW1C_dest (d : Word) : (statusW1C d s).dest = s.dest := rfl
@[simp] theorem statusW1C_src (d : Word) : (statusW1C d s).src = s.src := rfl
@[simp] theorem statusW1C_options (d : Word) : (statusW1C d s).options = s.options := rfl
@[simp] theorem statusW1C_code (d : Word) : (statusW1C d s).code = s.code := rfl
@[simp] theorem statusW1C_ilen (d : Word) : (statusW1C d s).ilen = s.ilen := rfl
@[simp] theorem statusW1C_out (d : Word) : (statusW1C d s).out = s.out := rfl
@[simp] theorem statusW1C_crcByte (d : Word) : (statusW1C d s).crcByte = s.crcByte := rfl
@[simp] theorem statusW1C_crc32 (d : Word) : (statusW1C d s).crc32 = s.crc32 := rfl
@[simp] theorem statusW1C_ibuf (d : Word) : (statusW1C d s).ibuf = s.ibuf := rfl
@[simp] theorem statusW1C_schedule (d : Word) : (statusW1C d s).schedule = s.schedule := rfl
@[simp] theorem statusW1C_trace (d : Word) : (statusW1C d s).trace = s.trace := rfl

@[simp] theorem State.carried_eng (r : List Move) (c : BusCycle) : (s.carried r c).eng = s.eng := rfl
@[simp] theorem State.carried_done (r : List Move) (c : BusCycle) : (s.carried r c).done = s.done := rfl
@[simp] theorem State.carried_errCmd (r : List Move) (c : BusCycle) : (s.carried r c).errCmd = s.errCmd := rfl
@[simp] theorem State.carried_errLen (r : List Move) (c : BusCycle) : (s.carried r c).errLen = s.errLen := rfl
@[simp] theorem State.carried_errBusy (r : List Move) (c : BusCycle) : (s.carried r c).errBusy = s.errBusy := rfl
@[simp] theorem State.carried_irqEn (r : List Move) (c : BusCycle) : (s.carried r c).irqEn = s.irqEn := rfl
@[simp] theorem State.carried_dest (r : List Move) (c : BusCycle) : (s.carried r c).dest = s.dest := rfl
@[simp] theorem State.carried_src (r : List Move) (c : BusCycle) : (s.carried r c).src = s.src := rfl
@[simp] theorem State.carried_options (r : List Move) (c : BusCycle) : (s.carried r c).options = s.options := rfl
@[simp] theorem State.carried_code (r : List Move) (c : BusCycle) : (s.carried r c).code = s.code := rfl
@[simp] theorem State.carried_ilen (r : List Move) (c : BusCycle) : (s.carried r c).ilen = s.ilen := rfl
@[simp] theorem State.carried_out (r : List Move) (c : BusCycle) : (s.carried r c).out = s.out := rfl
@[simp] theorem State.carried_crcByte (r : List Move) (c : BusCycle) : (s.carried r c).crcByte = s.crcByte := rfl
@[simp] theorem State.carried_crc32 (r : List Move) (c : BusCycle) : (s.carried r c).crc32 = s.crc32 := rfl
@[simp] theorem State.carried_ibuf (r : List Move) (c : BusCycle) : (s.carried r c).ibuf = s.ibuf := rfl
@[simp] theorem State.carried_schedule (r : List Move) (c : BusCycle) : (s.carried r c).schedule = r := rfl
@[simp] theorem State.carried_trace (r : List Move) (c : BusCycle) : (s.carried r c).trace = c :: s.trace := rfl

end Sys2Proof.Machine
end

