-- ==== Sys2Proof/Laws/Memory.lean ====
section
/-! SUPPORT. The laws of the input cells: read after write, and that a write keeps the canonical form. -/

namespace Sys2Proof.Machine

@[simp] theorem Memory.read_nil (i : Nat) : Memory.read [] i = none := rfl

@[simp] theorem Memory.read_cons (c : Host.Cell) (m : Memory) (i : Nat) :
    Memory.read (c :: m) i = if c.1 = i then some c.2 else Memory.read m i := rfl

theorem Memory.read_write_same (m : Memory) (i : Nat) (b : Byte) :
    Memory.read (Memory.write m i b) i = some b := by
  induction m with
  | nil => simp [Memory.write]
  | cons c m ih =>
    obtain ⟨j, c⟩ := c
    simp only [Memory.write]
    split
    · simp
    · split
      · simp
      · next h1 h2 => simp [Ne.symm h2, ih]

theorem Memory.read_write_ne (m : Memory) {i k : Nat} (b : Byte) (h : i ≠ k) :
    Memory.read (Memory.write m i b) k = Memory.read m k := by
  induction m with
  | nil => simp [Memory.write, h]
  | cons c m ih =>
    obtain ⟨j, c⟩ := c
    simp only [Memory.write]
    split
    · simp [h]
    · split
      · next h2 => subst h2; simp [h]
      · simp [ih]

theorem Memory.read_write (m : Memory) (i k : Nat) (b : Byte) :
    Memory.read (Memory.write m i b) k = if i = k then some b else Memory.read m k := by
  split
  · next h => subst h; exact Memory.read_write_same m i b
  · next h => exact Memory.read_write_ne m b h

theorem Memory.write_write (m : Memory) (i : Nat) (b : Byte) :
    Memory.write (Memory.write m i b) i b = Memory.write m i b := by
  induction m with
  | nil => simp [Memory.write]
  | cons c m ih =>
    obtain ⟨j, c⟩ := c
    by_cases h1 : i < j
    · simp [Memory.write, h1]
    · by_cases h2 : i = j
      · simp [Memory.write, h2]
      · simp [Memory.write, h1, h2, ih]

/-- The first cell after a write is the old first cell or the written one. -/
theorem Memory.write_head (m : Memory) (i : Nat) (b : Byte) :
    ∃ k c rest, Memory.write m i b = (k, c) :: rest ∧ (k = i ∨ ∃ d r, m = (k, d) :: r) := by
  cases m with
  | nil => exact ⟨i, b, [], rfl, .inl rfl⟩
  | cons c m =>
    obtain ⟨j, c⟩ := c
    simp only [Memory.write]
    split
    · exact ⟨i, b, _, rfl, .inl rfl⟩
    · split
      · exact ⟨i, b, _, rfl, .inl rfl⟩
      · exact ⟨j, c, _, rfl, .inr ⟨c, m, rfl⟩⟩

theorem Memory.wf_cons {i : Nat} {b : Byte} {m : Memory} :
    Memory.wf ((i, b) :: m) = true ↔ (∀ j c r, m = (j, c) :: r → i < j) ∧ Memory.wf m = true := by
  cases m with
  | nil => simp [Memory.wf]
  | cons c m =>
    obtain ⟨j, c⟩ := c
    simp only [Memory.wf, Bool.and_eq_true, decide_eq_true_eq, List.cons.injEq, Prod.mk.injEq]
    constructor
    · rintro ⟨h, w⟩
      exact ⟨by rintro _ _ _ ⟨⟨rfl, -⟩, -⟩; exact h, w⟩
    · rintro ⟨h, w⟩
      exact ⟨h j c m ⟨⟨rfl, rfl⟩, rfl⟩, w⟩

theorem Memory.write_keeps_wf {m : Memory} (i : Nat) (b : Byte) (h : Memory.wf m = true) :
    Memory.wf (Memory.write m i b) = true := by
  induction m with
  | nil => rfl
  | cons c m ih =>
    obtain ⟨j, c⟩ := c
    obtain ⟨hj, hm⟩ := Memory.wf_cons.mp h
    simp only [Memory.write]
    split
    · next hlt => exact Memory.wf_cons.mpr ⟨by rintro _ _ _ ⟨⟩; exact hlt, h⟩
    · split
      · next heq => subst heq; exact Memory.wf_cons.mpr ⟨hj, hm⟩
      · next hnlt hne =>
        refine Memory.wf_cons.mpr ⟨fun k d r hk => ?_, ih hm⟩
        obtain ⟨k', c', rest, hw, hcase⟩ := Memory.write_head m i b
        rw [hw] at hk
        obtain ⟨⟨rfl, -⟩, -⟩ : (k' = k ∧ c' = d) ∧ rest = r := by simpa using hk
        rcases hcase with rfl | ⟨d', r', rfl⟩
        · omega
        · exact hj _ _ _ rfl

theorem Memory.write_keeps_inCap {m : Memory} {i : Nat} (b : Byte) (hi : i < Config.ibufCap)
    (h : Memory.inCap m = true) : Memory.inCap (Memory.write m i b) = true := by
  induction m with
  | nil => simpa [Memory.inCap, Memory.write] using hi
  | cons c m ih =>
    obtain ⟨j, c⟩ := c
    simp only [Memory.inCap, List.all_cons, Bool.and_eq_true, decide_eq_true_eq] at h ih ⊢
    simp only [Memory.write]
    split
    · simp only [List.all_cons, Bool.and_eq_true, decide_eq_true_eq]; exact ⟨hi, h⟩
    · split
      · simp only [List.all_cons, Bool.and_eq_true, decide_eq_true_eq]; exact ⟨hi, h.2⟩
      · simp only [List.all_cons, Bool.and_eq_true, decide_eq_true_eq]; exact ⟨h.1, ih h.2⟩

theorem reset_ibuf_wf : Memory.wf State.reset.ibuf = true := rfl

end Sys2Proof.Machine
end

