-- ==== Sys2Proof/Laws/Commands.lean ====
section
/-! SUPPORT. What the shared operations of the commands can do: the input bytes, the accept, the commit, exec. -/

namespace Sys2Proof.Machine

theorem gatedWrite_idle {s : State} (f : State → State) (h : s.eng = .idle) : gatedWrite f s = f s := by
  simp [gatedWrite, h]

theorem gatedWrite_busy {s : State} (f : State → State) {op : Instr} (h : s.eng = .busy op) :
    gatedWrite f s = s.setErrBusy := by
  simp [gatedWrite, h]

/-- The cells from `i` on hold `p` exactly when collecting them gives `p`. -/
theorem collectCells_ok {m : Memory} {i n : Nat} {p : List Byte} :
    collectCells m i n = .ok p ↔
      p.length = n ∧ ∀ k b, p[k]? = some b → Memory.read m (i + k) = some b := by
  induction n generalizing i p with
  | zero => cases p <;> simp [collectCells]
  | succ n ih =>
    rw [collectCells]
    cases hr : Memory.read m i with
    | none =>
      simp only [reduceCtorEq, false_iff, not_and]
      intro hl hk
      cases p with
      | nil => simp at hl
      | cons b p => have := hk 0 b rfl; simp_all
    | some b =>
      cases hc : collectCells m (i + 1) n with
      | error f =>
        simp only [reduceCtorEq, false_iff, not_and]
        intro hl hk
        cases p with
        | nil => simp at hl
        | cons c p =>
          have : collectCells m (i + 1) n = .ok p :=
            ih.mpr ⟨by simpa using hl, fun k b h => by
              have := hk (k + 1) b (by simpa using h)
              rwa [show i + (k + 1) = i + 1 + k by omega] at this⟩
          simp [this] at hc
      | ok bs =>
        obtain ⟨hl, hk⟩ := ih.mp hc
        simp only [Except.ok.injEq]
        constructor
        · rintro rfl
          refine ⟨by simp [hl], fun k c h => ?_⟩
          cases k with
          | zero => simpa [hr] using h
          | succ k =>
            rw [show i + (k + 1) = i + 1 + k by omega]
            exact hk k c (by simpa using h)
        · rintro ⟨hl', hk'⟩
          cases p with
          | nil => simp at hl'
          | cons c p =>
            have h0 := hk' 0 c rfl
            have : collectCells m (i + 1) n = .ok p :=
              ih.mpr ⟨by simpa using hl', fun k b h => by
                have := hk' (k + 1) b (by simpa using h)
                rwa [show i + (k + 1) = i + 1 + k by omega] at this⟩
            simp_all

/-- Collecting faults at the first unwritten cell. -/
theorem collectCells_error {m : Memory} {i n k : Nat} (hk : k < n)
    (hnone : Memory.read m (i + k) = none) (hbefore : ∀ j, j < k → Memory.read m (i + j) ≠ none) :
    collectCells m i n = .error (.unwrittenInput (i + k)) := by
  induction n generalizing i k with
  | zero => omega
  | succ n ih =>
    rw [collectCells]
    cases k with
    | zero => simp_all
    | succ k =>
      have h0 : Memory.read m i ≠ none := by simpa using hbefore 0 (by omega)
      obtain ⟨b, hb⟩ := Option.ne_none_iff_exists'.mp h0
      have := ih (i := i + 1) (k := k) (by omega)
        (by rwa [show i + 1 + k = i + (k + 1) by omega])
        (fun j hj => by rw [show i + 1 + j = i + (j + 1) by omega]; exact hbefore _ (by omega))
      rw [hb, this]
      simp [show i + 1 + k = i + (k + 1) by omega]

theorem inBytes_ok {s : State} {p : List Byte} : inBytes s = .ok p ↔ s.holds p := by
  simp [inBytes, collectCells_ok, State.holds]

/-- The accept: refused above the capacity with ERR_LEN, else DONE cleared and the command in progress. -/
theorem accept_eq (op : Instr) (s : State) :
    accept op s = if 1024 < s.ilen.toNat then .next { s with errLen := true }
      else .next { s with done := false, eng := .busy op } := rfl

/-- A commit that answers a next state had its input, and wrote its effect, ENG and DONE. -/
theorem commit_next {e : List Byte → State → State} {s t : State} :
    commit e s = .next t ↔ ∃ p, s.holds p ∧ t = { e p s with eng := .idle, done := true } := by
  unfold commit
  cases h : inBytes s with
  | error f =>
    simp only [reduceCtorEq, false_iff, not_exists, not_and]
    intro p hp
    rw [inBytes_ok.mpr hp] at h
    cases h
  | ok p =>
    have hp := inBytes_ok.mp h
    simp only [Host.Outcome.next.injEq]
    constructor
    · rintro rfl; exact ⟨p, hp, rfl⟩
    · rintro ⟨q, hq, rfl⟩
      rw [inBytes_ok.mpr hq] at h
      cases h; rfl

/-- The effect of each command (R142 to R144). -/
def effectOf : Instr → List Byte → State → State
  | .build => buildEffect
  | .checksum => checksumEffect
  | .organize => organizeEffect

theorem exec_eq (i : Instr) (s : State) : exec i s = runCommand i (effectOf i) s := by
  cases i <;> rfl

theorem exec_idle (i : Instr) {s : State} (h : s.eng = .idle) : exec i s = accept i s := by
  simp [exec_eq, runCommand, h]

theorem exec_busy (i : Instr) {s : State} (h : s.eng = .busy i) : exec i s = commit (effectOf i) s := by
  simp [exec_eq, runCommand, h]

/-- Everything exec can answer with a next state. -/
theorem exec_next {i : Instr} {s t : State} (h : exec i s = .next t) :
    (s.eng = .idle ∧ 1024 < s.ilen.toNat ∧ t = { s with errLen := true }) ∨
    (s.eng = .idle ∧ s.ilen.toNat ≤ 1024 ∧ t = { s with done := false, eng := .busy i }) ∨
    (s.eng = .busy i ∧ ∃ p, s.holds p ∧ t = { effectOf i p s with eng := .idle, done := true }) ∨
    (∃ op, op ≠ i ∧ s.eng = .busy op ∧ t = { s with errBusy := true }) := by
  rw [exec_eq, runCommand] at h
  cases he : s.eng with
  | idle =>
    simp only [he, accept_eq] at h
    split at h <;> cases h
    · exact .inl ⟨rfl, ‹_›, by simp⟩
    · exact .inr (.inl ⟨rfl, by omega, by simp⟩)
  | busy op =>
    simp only [he] at h
    split at h
    · next ho => subst ho; exact .inr (.inr (.inl ⟨rfl, commit_next.mp h⟩))
    · next ho => cases h; exact .inr (.inr (.inr ⟨op, ho, rfl, by simp [State.setErrBusy, he]⟩))

/-- A commit's effect touches no register but its results. -/
theorem effectOf_frame (i : Instr) (p : List Byte) (s : State) :
    effectOf i p s = { s with
      out := (effectOf i p s).out, crc32 := (effectOf i p s).crc32, crcByte := (effectOf i p s).crcByte } := by
  cases i <;> rfl

end Sys2Proof.Machine
end

