-- ==== Sys2Proof/Laws/Access.lean ====
section
/-! SUPPORT. The address map, and everything a bus access and a step can do. -/

namespace Sys2Proof.Machine

theorem supported_iff {off : Offset} {size : Nat} :
    supported off size = true ↔ size = 4 ∧ off.toNat % 4 = 0 := by
  have h : off.extractLsb' 0 2 = 0#2 ↔ off.toNat % 4 = 0 := by
    rw [← BitVec.toNat_inj]; simp
  simp [supported, Config.accessBytes, h]

theorem supported_four {off : Offset} (h : off.toNat % 4 = 0) : supported off 4 = true :=
  supported_iff.mpr ⟨rfl, h⟩

theorem regOffset_aligned (r : Reg) : (regOffset r).toNat % 4 = 0 := by cases r <;> rfl

theorem regOffset_lt (r : Reg) : (regOffset r).toNat < 0x30 := by cases r <;> decide

@[simp] theorem region_regOffset (r : Reg) : region (regOffset r) = .reg r := by cases r <;> rfl

theorem region_eq_reg {off : Offset} {r : Reg} (h : region off = .reg r) : off = regOffset r := by
  unfold region at h
  split at h
  · next r' hf =>
    cases h
    exact (by simpa using List.find?_some hf : regOffset r = off).symm
  · split at h <;> (try split at h) <;> cases h

theorem find_reg_none {off : Offset} (h : 0x30 ≤ off.toNat) :
    regMap.find? (fun r => regOffset r == off) = none := by
  rw [List.find?_eq_none]
  intro r _ hr
  have := regOffset_lt r
  rw [show regOffset r = off by simpa using hr] at this
  omega

theorem region_reserved {off : Offset} (h1 : 0x30 ≤ off.toNat) (h2 : off.toNat < 0x1000) :
    region off = .reserved := by
  simp [region, find_reg_none h1, h2]

theorem region_ibuf {off : Offset} (h1 : 0x1000 ≤ off.toNat) (h2 : off.toNat < 0x2000) :
    region off = .ibuf ((off.toNat - 0x1000) / 4) := by
  simp [region, find_reg_none (show 0x30 ≤ off.toNat by omega), h2, show ¬ off.toNat < 0x1000 by omega]

theorem region_obuf {off : Offset} (h1 : 0x2000 ≤ off.toNat) :
    region off = .obuf ((off.toNat - 0x2000) / 4) := by
  simp [region, find_reg_none (show 0x30 ≤ off.toNat by omega), show ¬ off.toNat < 0x2000 by omega,
    show ¬ off.toNat < 0x1000 by omega]

theorem ibufOffset_toNat {i : Nat} (h : i < 1024) : (ibufOffset i).toNat = 0x1000 + 4 * i := by
  simp [ibufOffset]; omega

theorem obufOffset_toNat {i : Nat} (h : i < 2048) : (obufOffset i).toNat = 0x2000 + 4 * i := by
  simp [obufOffset]; omega

theorem region_ibufOffset {i : Nat} (h : i < 1024) : region (ibufOffset i) = .ibuf i := by
  have ht := ibufOffset_toNat h
  rw [region_ibuf (by omega) (by omega), ht]
  congr 1; omega

theorem region_obufOffset {i : Nat} (h : i < 2048) : region (obufOffset i) = .obuf i := by
  have ht := obufOffset_toNat h
  rw [region_obuf (by omega), ht]
  congr 1; omega

theorem supported_regOffset (r : Reg) : supported (regOffset r) 4 = true :=
  supported_four (regOffset_aligned r)

theorem supported_ibufOffset {i : Nat} (h : i < 1024) : supported (ibufOffset i) 4 = true :=
  supported_four (by rw [ibufOffset_toNat h]; omega)

theorem supported_obufOffset {i : Nat} (h : i < 2048) : supported (obufOffset i) 4 = true :=
  supported_four (by rw [obufOffset_toNat h]; omega)

/-- An entry of the IBUF region is one of the 1024 cells. -/
theorem region_ibuf_bound {off : Offset} {i : Nat} (h : region off = .ibuf i) :
    i < Config.ibufCap ∧ 0x1000 ≤ off.toNat ∧ off.toNat < 0x2000 := by
  by_cases h1 : off.toNat < 0x1000
  · unfold region at h; split at h
    · cases h
    · simp [h1] at h
  · by_cases h2 : off.toNat < 0x2000
    · rw [region_ibuf (by omega) h2] at h
      cases h; simp only [Config.ibufCap]; omega
    · rw [region_obuf (by omega)] at h; cases h

theorem blockBase_aligned : Config.blockBase % 0x4000 = 0 := by
  simp only [Config.blockBase, Config.windowSize]
  omega

/-- Every offset of the window is selected by its bus address, for every BLOCK_BASE (R50). -/
theorem busSelect_inside (off : Offset) : busSelect (Config.blockBase + off.toNat) = some off := by
  have hw : Config.windowSize = 0x4000 := rfl
  have hlt := off.isLt
  unfold busSelect
  rw [if_pos (by omega)]
  simp

/-- An address outside the window is not FACRC's (R52). -/
theorem busSelect_outside {addr : Nat}
    (h : addr < Config.blockBase ∨ Config.blockBase + 0x4000 ≤ addr) : busSelect addr = none := by
  have hw : Config.windowSize = 0x4000 := rfl
  unfold busSelect
  exact if_neg (by omega)

theorem busRead_none {addr : Nat} (size : Nat) (h : busSelect addr = none) : busRead addr size = [] := by
  unfold busRead
  simp only [h]

theorem busWrite_none {addr : Nat} (size : Nat) (d : Word) (h : busSelect addr = none) :
    busWrite addr size d = [] := by
  unfold busWrite
  simp only [h]

theorem memRead_regOffset (r : Reg) (s : State) : memRead (regOffset r) 4 s = .ok (readReg r s) := by
  simp [memRead, supported_regOffset]

theorem memWrite_regOffset (r : Reg) (d : Word) (s : State) :
    memWrite (regOffset r) 4 d s = writeReg r d s := by
  simp [memWrite, supported_regOffset]

/-- The decode table, as the spec words it (R81). -/
theorem decode_ok_iff {w : Word} {i : Instr} : decode w = .ok i ↔ w = encode i := by
  have h : ∀ v : Word, w &&& 0xFFFFFFFF#32 = v ↔ w = v := by
    intro v
    rw [show (0xFFFFFFFF#32 : Word) = BitVec.allOnes 32 by decide, BitVec.and_allOnes]
  constructor
  · intro hd
    unfold decode at hd
    split at hd
    · next row hf =>
      have hm := List.find?_some hf
      have hr := List.mem_of_find?_eq_some hf
      simp only [opcodeTable, List.mem_cons, List.not_mem_nil, or_false] at hr
      rcases hr with rfl | rfl | rfl <;> cases hd <;> simpa [h, encode] using hm
    · cases hd
  · rintro rfl; cases i <;> rfl

theorem decode_error_iff {w : Word} {e : DecodeReject} :
    decode w = .error e ↔ e = .reservedWord w ∧ ∀ i, w ≠ encode i := by
  cases h : decode w with
  | ok i =>
    have := decode_ok_iff.mp h
    simp only [reduceCtorEq, false_iff, not_and, not_forall, ne_eq, Decidable.not_not]
    exact fun _ => ⟨i, this⟩
  | error e' =>
    have he : e' = .reservedWord w := by
      unfold decode at h; split at h <;> cases h; rfl
    subst he
    simp only [Except.error.injEq]
    constructor
    · rintro rfl
      exact ⟨rfl, fun i hi => by rw [decode_ok_iff.mpr hi] at h; cases h⟩
    · rintro ⟨rfl, -⟩; rfl

/-- Everything a supported write can do. -/
inductive WriteKind (off : Offset) (d : Word) (s t : State) : Prop
  | accepted (i : Instr) (ho : off = 0x000#14) (hd : d = encode i) (he : s.eng = .idle)
      (hl : s.ilen.toNat ≤ 1024) (ht : t = { s with done := false, eng := .busy i })
  | tooLong (i : Instr) (ho : off = 0x000#14) (hd : d = encode i) (he : s.eng = .idle)
      (hl : 1024 < s.ilen.toNat) (ht : t = { s with errLen := true })
  | reservedWord (ho : off = 0x000#14) (hd : ∀ i, d ≠ encode i) (he : s.eng = .idle)
      (ht : t = { s with errCmd := true })
  | dropped (op : Instr) (he : s.eng = .busy op)
      (ho : off ∈ [0x000#14, 0x00C#14, 0x010#14, 0x014#14, 0x018#14, 0x01C#14]
        ∨ (0x1000 ≤ off.toNat ∧ off.toNat < 0x2000))
      (ht : t = { s with errBusy := true })
  | w1c (ho : off = 0x004#14) (ht : t = statusW1C d s)
  | enables (ho : off = 0x008#14) (ht : t = { s with irqEn := d.setWidth 2 })
  | inputReg (dest src options : Byte) (code ilen : Half) (he : s.eng = .idle)
      (ht : t = { s with dest := dest, src := src, options := options, code := code, ilen := ilen })
  | inputCell (i : Nat) (hi : i < Config.ibufCap) (he : s.eng = .idle) (ho : off = ibufOffset i)
      (ht : t = { s with ibuf := Memory.write s.ibuf i (d.setWidth 8) })
  | nothing (ht : t = s)

theorem cmdWrite_kind {d : Word} {s t : State} (h : cmdWrite d s = .next t) :
    WriteKind 0x000#14 d s t := by
  unfold cmdWrite at h
  cases he : s.eng with
  | busy op =>
    simp only [he] at h; cases h
    exact .dropped op he (.inl (by simp)) rfl
  | idle =>
    simp only [he] at h
    cases hd : decode d with
    | error e =>
      simp only [hd] at h; cases h
      exact .reservedWord rfl (decode_error_iff.mp hd).2 he rfl
    | ok i =>
      simp only [hd, exec_idle i he, accept_eq] at h
      have hi := decode_ok_iff.mp hd
      split at h <;> cases h
      · exact .tooLong i rfl hi he ‹_› rfl
      · exact .accepted i rfl hi he (by omega) rfl

theorem memWrite_kind {off : Offset} {d : Word} {s t : State} (h : memWrite off 4 d s = .next t) :
    off.toNat % 4 = 0 ∧ WriteKind off d s t := by
  unfold memWrite at h
  split at h
  swap
  · cases h
  next hsup =>
  have hal := (supported_iff.mp hsup).2
  refine ⟨hal, ?_⟩
  have input : ∀ (f : State → State) (r : Reg), off = regOffset r →
      regOffset r ∈ [0x000#14, 0x00C#14, 0x010#14, 0x014#14, 0x018#14, 0x01C#14] →
      f s = { s with dest := (f s).dest, src := (f s).src, options := (f s).options,
                     code := (f s).code, ilen := (f s).ilen } →
      (Host.Outcome.next (gatedWrite f s) : Host.Outcome State Fault Refusal) = .next t →
      WriteKind off d s t := by
    intro f r ho hm hf hg
    cases hg
    cases he : s.eng with
    | idle => rw [gatedWrite_idle f he]; exact .inputReg _ _ _ _ _ he hf
    | busy op => rw [gatedWrite_busy f he]; exact .dropped op he (.inl (ho ▸ hm)) rfl
  cases hr : region off with
  | reg r =>
    rw [hr] at h
    have ho := region_eq_reg hr
    cases r with
    | cmd => cases ho; exact cmdWrite_kind h
    | status => cases h; exact .w1c ho rfl
    | irqEn => cases h; exact .enables ho rfl
    | dest => exact input (fun u => { u with dest := d.setWidth 8 }) _ ho (by decide) rfl h
    | src => exact input (fun u => { u with src := d.setWidth 8 }) _ ho (by decide) rfl h
    | options => exact input (fun u => { u with options := d.setWidth 8 }) _ ho (by decide) rfl h
    | code => exact input (fun u => { u with code := d.setWidth 16 }) _ ho (by decide) rfl h
    | ilen => exact input (fun u => { u with ilen := d.setWidth 16 }) _ ho (by decide) rfl h
    | olen => cases h; exact .nothing rfl
    | crcByte => cases h; exact .nothing rfl
    | crc32 => cases h; exact .nothing rfl
    | caps => cases h; exact .nothing rfl
  | reserved => rw [hr] at h; cases h; exact .nothing rfl
  | obuf i => rw [hr] at h; cases h; exact .nothing rfl
  | ibuf i =>
    rw [hr] at h; cases h
    obtain ⟨hi, h1, h2⟩ := region_ibuf_bound hr
    cases he : s.eng with
    | busy op => simp only [ibufWrite, gatedWrite_busy _ he]; exact .dropped op he (.inr ⟨h1, h2⟩) rfl
    | idle =>
      simp only [ibufWrite, gatedWrite_idle _ he]
      refine .inputCell i hi he ?_ rfl
      rw [region_ibuf h1 h2] at hr
      cases hr
      apply BitVec.eq_of_toNat_eq
      rw [ibufOffset_toNat (by omega)]
      omega

/-- A poll of `WAIT` records the STATUS word and changes nothing of the block (R94, R56). -/
theorem hostMove_statusPoll (s : State) :
    hostMove statusPoll s = .next (s.record ⟨.R, 0x004#14, statusWord s⟩) := rfl

/-- Everything a step that answers a next state can do. -/
inductive StepKind (s t : State) : Prop
  | reset (rest : List Move) (hs : s.schedule = .reset :: rest)
      (ht : t = resetBlock { s with schedule := rest })
  | commit (i : Instr) (rest : List Move) (p : List Byte) (he : s.eng = .busy i)
      (hs : s.schedule = .engine :: rest
        ∨ (s.schedule = rest ∧ (rest = [] ∨ ∃ r, rest = .wait 0 :: r)))
      (hp : s.holds p)
      (ht : t = { effectOf i p { s with schedule := rest } with eng := .idle, done := true })
  | quiet (rest : List Move) (tr : List BusCycle) (ht : t = { s with schedule := rest, trace := tr })
  | write (off : Offset) (d : Word) (rest : List Move) (hs : s.schedule = .host (.write off 4 d) :: rest)
      (hw : WriteKind off d (s.carried rest ⟨.W, off, d⟩) t)

theorem exec_busy_next {i : Instr} {s t : State} (he : s.eng = .busy i) (h : exec i s = .next t) :
    ∃ p, s.holds p ∧ t = { effectOf i p s with eng := .idle, done := true } :=
  commit_next.mp (exec_busy i he ▸ h)

theorem step_kind {s t : State} (h : step s = .next t) : StepKind s t := by
  unfold step nextMove at h
  cases hs : s.schedule with
  | nil =>
    simp only [hs, engineMove] at h
    cases he : s.eng with
    | idle => simp only [he] at h; cases h; exact .quiet s.schedule s.trace rfl
    | busy i =>
      simp only [he] at h
      obtain ⟨p, hp, ht⟩ := exec_busy_next he h
      exact .commit i [] p he (.inr ⟨hs, .inl rfl⟩) hp (by rw [ht, ← hs])
  | cons m rest =>
    cases m with
    | reset => simp only [hs] at h; cases h; exact .reset rest hs rfl
    | engine =>
      simp only [hs, engineMove] at h
      cases he : s.eng with
      | idle => simp only [he] at h; cases h; exact .quiet rest s.trace (by rw [he])
      | busy i =>
        simp only [he] at h
        obtain ⟨p, hp, ht⟩ := exec_busy_next (s := { s with schedule := rest, eng := .busy i }) rfl h
        exact .commit i rest p he (.inl hs) hp (by rw [ht, ← he])
    | wait polls =>
      simp only [hs] at h
      cases he : s.eng with
      | busy i =>
        cases polls with
        | zero =>
          simp only [he] at h
          obtain ⟨p, hp, ht⟩ := exec_busy_next he h
          exact .commit i (.wait 0 :: rest) p he (.inr ⟨hs, .inr ⟨rest, rfl⟩⟩) hp (by rw [ht, ← hs])
        | succ n =>
          simp only [he, hostMove_statusPoll] at h
          cases h
          exact .quiet (.wait n :: rest) (_ :: s.trace) (by simp [State.record, he]; rfl)
      | idle =>
        simp only [he, hostMove_statusPoll] at h
        cases h
        exact .quiet rest (_ :: s.trace) (by simp [State.record, he]; rfl)
    | host a =>
      simp only [hs] at h
      cases a with
      | read off size =>
        simp only [hostMove] at h
        split at h <;> cases h
        exact .quiet rest _ rfl
      | write off size d =>
        simp only [hostMove] at h
        by_cases hz : size = 4
        · subst hz; exact .write off d rest hs (memWrite_kind h).2
        · have : supported off size = false := by
            by_contra hc
            exact hz (supported_iff.mp (by simpa using hc)).1
          simp [memWrite, this] at h

end Sys2Proof.Machine
end

