-- ==== Sys2Proof/Laws/PerInstr.lean ====
section
/-! SUPPORT. Statements made per command, one lemma per constructor of Instr. -/

namespace Sys2Proof.Laws

/-- A command is well formed, and decoding its word gives it back (R80, R81). -/
def RoundTrip.Statement (i : Instr) : Prop :=
  i.wf = true ∧ decode (encode i) = .ok i ∧ decodeTableWord 32 (encode i).toNat = some i

theorem RoundTrip.build : RoundTrip.Statement .build := ⟨rfl, rfl, rfl⟩

theorem RoundTrip.checksum : RoundTrip.Statement .checksum := ⟨rfl, rfl, rfl⟩

theorem RoundTrip.organize : RoundTrip.Statement .organize := ⟨rfl, rfl, rfl⟩

end Sys2Proof.Laws
end

