-- ==== Sys2Proof/Laws/Run.lean ====
section
/-! SUPPORT. Running the machine, and what it takes to show the effect of one access at the step. -/

namespace Sys2Proof.Machine

@[simp] theorem run_zero (s : State) : run 0 s = .next s := rfl

theorem run_succ (n : Nat) (s : State) :
    run (n + 1) s = match step s with
      | .next s' => run n s'
      | .fault r => .fault r
      | .refused r => .refused r := by
  cases h : step s <;> simp [run, Host.Core.run, core, h]

/-- A run that answers a next state goes on from it. -/
theorem run_add {n m : Nat} {s t : State} (h : run n s = .next t) : run (n + m) s = run m t := by
  induction n generalizing s with
  | zero => cases h; rw [Nat.zero_add]
  | succ n ih =>
    rw [Nat.add_right_comm, run_succ]
    rw [run_succ] at h
    cases hs : step s <;> simp only [hs] at h ⊢
    · exact ih h
    all_goals cases h

/-- A read that answers `v` whatever is scheduled, returns `v` at the step. -/
theorem readReturns_of {s : State} {off : Offset} {v : Word}
    (h : ∀ rest, memRead off 4 { s with schedule := rest } = .ok v) : ReadReturns s off v := by
  intro rest
  simp [step, nextMove, hostMove, State.record, State.carried, h]

/-- A write that turns `s` into `t` whatever is scheduled and recorded, does so at the step. -/
theorem writeGives_of {s t : State} {off : Offset} {d : Word}
    (h : ∀ rest, memWrite off 4 d (s.carried rest ⟨.W, off, d⟩) = .next (t.carried rest ⟨.W, off, d⟩)) :
    WriteGives s off d t := by
  intro rest
  simpa [step, nextMove, hostMove, State.record, State.carried] using h rest

end Sys2Proof.Machine
end

