-- ==== Sys2Proof/Tests/Slice0.lean ====
section
/-! SUPPORT. Tests against values that the spec gives (95_test_vectors.md and the examples of the rules; each test names its
source), and a witness for the hypotheses of every statement. -/

namespace Sys2Proof.Tests

open Sys2Proof.Machine

/-- The state an outcome answers, if it answers one. -/
def stateOf (o : Host.Outcome State Fault Refusal) : Option State :=
  match o with
  | .next t => some t
  | .fault _ => none
  | .refused _ => none

/-- The fault an outcome ends in, if it does. -/
def faultOf (o : Host.Outcome State Fault Refusal) : Option Fault :=
  match o with
  | .next _ => none
  | .fault f => some f
  | .refused _ => none

/-- The reset state with the input `bytes` loaded and ILEN their number. -/
def loaded (bytes : List Byte) : State :=
  { State.reset with
    ilen := BitVec.ofNat 16 bytes.length
    ibuf := bytes.zipIdx.map (fun (b, i) => (i, b)) }

/-- The same, with command `i` accepted. -/
def busyWith (i : Instr) (bytes : List Byte) : State := { loaded bytes with eng := .busy i }

/-- `s` with one host write as its next move. -/
def writing (off : Offset) (d : Word) (s : State) : State :=
  { s with schedule := [.host (.write off 4 d)] }

/-- BUILD in progress with the operands of V-BLD-1. -/
def buildS7 : State := { busyWith .build [] with dest := 0x02#8, src := 0x01#8, code := 0x0001#16 }

/-! ## Well-formedness: each check refuses an ill-formed term -/

theorem test_wf_instr : Instr.wf .build = true ∧ Instr.wf .checksum = true ∧ Instr.wf .organize = true := by decide

theorem test_wf_ibuf_index : Line.wf (.wr (.ibuf 1023) 0) = true ∧ Line.wf (.wr (.ibuf 1024) 0) = false := by decide

theorem test_wf_obuf_index :
    Line.wf (.rd (.obuf 2047) "x") = true ∧ Line.wf (.rd (.obuf 2048) "x") = false := by decide

theorem test_wf_offset : Target.wf (.offset 0x3FFF) = true ∧ Target.wf (.offset 0x4000) = false := by decide

theorem test_wf_loadin (values : List Word) :
    (values.length = 1024 → Line.wf (.loadin values) = true) ∧
    (values.length = 1025 → Line.wf (.loadin values) = false) := by
  constructor <;> intro h <;> rw [Line.wf, h] <;> decide

theorem test_wf_script : Script.wf [.wait, .wr (.ibuf 1024) 0] = false := by decide

/-! ## Decoding: words written out bit by bit from R81 and R82 -/

theorem test_decode_build : decode 0b00000000000000000000000000000001#32 = .ok .build := by decide

theorem test_decode_checksum : decode 0b00000000000000000000000000000010#32 = .ok .checksum := by decide

theorem test_decode_organize : decode 0b00000000000000000000000000000011#32 = .ok .organize := by decide

/-- R145: 0x00000000 is no no-op, and bits [31:8] are decoded. -/
theorem test_decode_reserved :
    decode 0b00000000000000000000000000000000#32 = .error (.reservedWord 0x00000000#32) ∧
    decode 0b00000000000000000000000000000100#32 = .error (.reservedWord 0x00000004#32) ∧
    decode 0b00000000000000000000000100000001#32 = .error (.reservedWord 0x00000101#32) ∧
    decode 0b10000000000000000000000000000001#32 = .error (.reservedWord 0x80000001#32) := by decide

theorem test_decodeTableWord :
    decodeTableWord 32 1 = some .build ∧ decodeTableWord 32 2 = some .checksum ∧
    decodeTableWord 32 3 = some .organize ∧ decodeTableWord 32 0x101 = none := by decide

theorem test_first_step_runs_build :
    ((stateOf (step (State.reset.withFetchWord 32 1))).map State.eng) = some (.busy .build) := by decide

/-! ## Datapath (95_test_vectors.md) -/

/-- V-SPLIT. -/
theorem test_splitCode :
    splitCode 0x00FF#16 = (0xFF#8, 0x00#8, 0) ∧ splitCode 0x0100#16 = (0x00#8, 0x01#8, 1) ∧
    splitCode 0x1234#16 = (0x34#8, 0x12#8, 1) := by decide

/-- V-CRC. -/
theorem test_crcBitStep :
    crcBitStep 0x40000000#32 = 0x80000000#32 ∧ crcBitStep 0xFD000000#32 = 0xFEC11DB7#32 := by decide

/-- V-CRC-1. -/
theorem test_crcByteStep : crcByteStep 0xFFFFFFFF#32 0x02#8 = 0x478A84DA#32 := by decide +kernel

/-- V-ORG, n = 7 and n = 9. -/
theorem test_organize :
    organize [0x11#8, 0x22#8, 0x33#8, 0x44#8, 0x55#8, 0x66#8, 0x77#8] =
      [0x44#8, 0x33#8, 0x22#8, 0x11#8, 0x00#8, 0x77#8, 0x66#8, 0x55#8] ∧
    crc32Acc (organize [0x11#8, 0x22#8, 0x33#8, 0x44#8, 0x55#8, 0x66#8, 0x77#8, 0x88#8, 0x99#8])
      = 0x45D614F8#32 := by decide +kernel

/-- V-CK: `FF FF FF FF` and `01 00 00 00 00`. -/
theorem test_checksumOf :
    crc32Acc (organize [0xFF#8, 0xFF#8, 0xFF#8, 0xFF#8]) = 0x00000000#32 ∧
    checksumOf [0x01#8, 0x00#8, 0x00#8, 0x00#8, 0x00#8] = 0xD4#8 := by decide +kernel

/-- V-BLD-5. -/
theorem test_buildFrame_long :
    buildFrame 0x10#8 0x20#8 0x80#8 0x1234#16 [0x01#8, 0x02#8, 0x03#8, 0x04#8, 0x05#8] =
      ([0x48#8, 0x5A#8, 0x0A#8, 0x10#8, 0x20#8, 0x80#8, 0x34#8, 0x12#8, 0x01#8, 0x02#8, 0x03#8, 0x04#8,
        0x05#8, 0x59#8], 0xE5F3B659#32) := by decide +kernel

/-- V-LEN, code 0x0100 and P = 251: the length byte wraps to 00. -/
theorem test_buildFrame_length_wrap :
    let b := frameBody 0x02#8 0x01#8 0x00#8 0x0100#16 (List.replicate 251 0x55#8)
    b[2]? = some 0x00#8 ∧ b.length = 259 := by decide +kernel

/-- V-CK's last row through the word-wide engine of R122. -/
theorem test_crc32Words :
    crc32Words (groupWords [0x48#8, 0x5A#8, 0x04#8, 0x02#8, 0x01#8, 0x00#8, 0x01#8]) = 0x2C35A2E3#32 := by
  decide +kernel

/-! ## Commands, one event each -/

/-- R142's example (V-BLD-1). -/
theorem test_build_commit :
    (stateOf (exec .build buildS7)).map (fun t => (t.out, t.crc32, t.crcByte, statusWord t)) =
      some ([0x48#8, 0x5A#8, 0x04#8, 0x02#8, 0x01#8, 0x00#8, 0x01#8, 0xE3#8], 0x2C35A2E3#32, 0xE3#8,
        0x00000002#32) := by decide +kernel

/-- V-CMD-4: ILEN = 1025. -/
theorem test_build_too_long :
    (stateOf (step (writing 0x000#14 1 { State.reset with ilen := 1025#16 }))).map statusWord
      = some 0x00000008#32 := by decide

/-- V-CMD-11, in a state of its own. -/
theorem test_checksum_commit :
    (stateOf (exec .checksum (busyWith .checksum [0x48#8, 0x5A#8, 0x04#8, 0x02#8, 0x01#8, 0x00#8, 0x01#8]))).map
      (fun t => (t.out, t.crc32, t.crcByte)) = some ([], 0x2C35A2E3#32, 0xE3#8) := by decide +kernel

/-- V-CMD-10: cell 2 of 3 is unwritten. -/
theorem test_checksum_unwritten :
    faultOf (exec .checksum { busyWith .checksum [0x01#8, 0x02#8] with ilen := 3#16 })
      = some (.unwrittenInput 2) := by decide

/-- S5, as ORGANIZE leaves it; the CRC registers are kept. -/
theorem test_organize_commit :
    (stateOf (exec .organize (busyWith .organize [0x0A#8, 0x0B#8, 0x0C#8, 0x0D#8, 0x0E#8]))).map
      (fun t => (t.out, t.crc32)) =
      some ([0x0D#8, 0x0C#8, 0x0B#8, 0x0A#8, 0x00#8, 0x00#8, 0x00#8, 0x0E#8], 0x00000000#32) := by decide

/-- V-CMD-6: ERR_CMD wins over ERR_LEN. -/
theorem test_reserved_word_priority :
    (stateOf (step (writing 0x000#14 9 { State.reset with ilen := 2000#16 }))).map statusWord
      = some 0x00000004#32 := by decide

/-! ## Accesses, interrupt, reset -/

/-- V-BUS-1 and V-BUS-4. -/
theorem test_reads_after_reset :
    memRead 0x02C#14 4 State.reset = .ok 0x00000400#32 ∧
    memRead 0x1000#14 4 State.reset = .error (.unwrittenRead 0) := by decide

/-- V-BUS-15 and V-BUS-16. -/
theorem test_unsupported :
    memRead 0x004#14 1 State.reset = .error (.unsupportedAccess 0x004#14 1) ∧
    memRead 0x006#14 4 State.reset = .error (.unsupportedAccess 0x006#14 4) := by decide

/-- V-BUS-8. -/
theorem test_ibuf_write :
    (stateOf (memWrite 0x100C#14 4 0x1AB State.reset)).map (memRead 0x100C#14 4)
      = some (.ok 0x000000AB#32) := by decide

/-- V-BUS-6. -/
theorem test_code_write :
    (stateOf (memWrite 0x018#14 4 0xABCD1234 State.reset)).map (memRead 0x018#14 4)
      = some (.ok 0x00001234#32) := by decide

/-- V-BUS-10. -/
theorem test_status_w1c :
    (stateOf (memWrite 0x004#14 4 0xFFFFFFFF
      { busyWith .build [] with done := true, errCmd := true, errLen := true, errBusy := true })).map statusWord
      = some 0x00000001#32 := by decide

/-- V-BUS-13. -/
theorem test_busy_gate :
    (stateOf (memWrite 0x010#14 4 0x05 (busyWith .build []))).map (fun t => (t.src, statusWord t))
      = some (0x00#8, 0x00000011#32) := by decide

/-- V-IRQ-3, V-IRQ-4 and V-IRQ-6. -/
theorem test_irq :
    irq { State.reset with done := true, irqEn := 0b10#2 } = false ∧
    irq { State.reset with errBusy := true, irqEn := 0b10#2 } = true ∧
    irq { busyWith .build [] with irqEn := 0b11#2 } = false := by decide

/-- V-RST-2. -/
theorem test_reset_while_busy :
    (stateOf (step { buildS7 with schedule := [.reset] })) = some State.reset := by decide

/-- R94: `LOADIN 0xDE, 0xAD` as P2 encodes it, steps 6 to 8. -/
theorem test_loadin_expansion :
    lineMoves 0 (.loadin [0xDE, 0xAD]) =
      [.host (.write 0x1000#14 4 0xDE), .host (.write 0x1004#14 4 0xAD), .host (.write 0x01C#14 4 2)] := by
  decide

/-- P5, steps 2 and 3, with one earlier read that returns BUSY = 1, as 95_test_vectors.md section 3 allows it: the
reads return 0x00000001 and then 0x00000002. -/
theorem test_wait_polls :
    (stateOf (run 4 { State.reset with schedule := scriptMoves [0, 1] [.command .checksum, .wait] })).map
        (fun t => (t.trace, t.schedule)) =
      some ([⟨.R, 0x004#14, 0x00000002#32⟩, ⟨.R, 0x004#14, 0x00000001#32⟩, ⟨.W, 0x000#14, 0x00000002#32⟩], []) := by
  decide

/-! ## Witnesses: each statement's hypotheses are met together -/

theorem witness_DecodeEncodeAgree : decode 0x00000003#32 = .ok .organize := by decide

/-- Both ends of the reserved range, idle and busy (also for CmdWriteAccept's ERR_CMD clause). -/
theorem witness_ReservedWordsSetOneErrorBit :
    (0x00000004#32 ≠ 0x00000001#32 ∧ 0x00000004#32 ≠ 0x00000002#32 ∧ 0x00000004#32 ≠ 0x00000003#32) ∧
    (0x00000000#32 ≠ 0x00000001#32 ∧ 0x00000000#32 ≠ 0x00000002#32 ∧ 0x00000000#32 ≠ 0x00000003#32) ∧
    State.reset.eng = .idle ∧ buildS7.eng = .busy .build := by decide

theorem witness_FrameLengthBounds : ∃ p : List Byte, p.length = 1024 ∧ p.length ≤ 1024 :=
  ⟨List.replicate 1024 0x55#8, List.length_replicate, by rw [List.length_replicate]⟩

theorem witness_FrameCodeWidthAmbiguity : (0x01#8 : Byte) ≠ 0x00#8 := by decide

theorem witness_FrameDeterminesFields :
    (splitCode 0x0100#16).2.2 = (splitCode 0x0100#16).2.2 ∧
    (buildFrame 1 2 3 0x0100#16 [4]).1 = (buildFrame 1 2 3 0x0100#16 [4]).1 := ⟨rfl, rfl⟩

/-- A five-byte input: its second group, and the last byte of the output. -/
theorem witness_OrganizeIndexLaw :
    4 * 1 < [1#8, 2#8, 3#8, 4#8, 5#8].length ∧ 7 < (organize [1#8, 2#8, 3#8, 4#8, 5#8]).length := by decide

theorem witness_TrailingZerosInFinalGroup :
    ([1#8].length % 4 ≠ 0 ∧ [1#8].length + 3 ≤ ([1#8].length + 3) / 4 * 4) ∧
    ([1#8].length + 3) / 4 * 4 < [1#8].length + 4 := by decide

theorem witness_CrcBitStepBits : 0 < 32 ∧ 31 < 32 := by decide

/-- The clauses of AcceptAndFaults at their boundaries: ILEN = 1024 and 1025 while idle, a running command, and the
first unwritten cell. -/
theorem witness_AcceptAndFaults (i : Instr) :
    (∃ s : State, s.eng = .idle ∧ s.ilen.toNat ≤ 1024 ∧ s.ilen.toNat = 1024) ∧
    (∃ s : State, s.eng = .idle ∧ 1024 < s.ilen.toNat ∧ s.ilen.toNat = 1025) ∧
    (∃ s : State, s.eng = .busy .organize) ∧
    (∃ s : State, s.eng = .busy i ∧ 2 < s.ilen.toNat ∧ Memory.read s.ibuf 2 = none ∧
      ∀ j, j < 2 → Memory.read s.ibuf j ≠ none) :=
  ⟨⟨{ State.reset with ilen := 1024#16 }, by decide⟩, ⟨{ State.reset with ilen := 1025#16 }, by decide⟩,
    ⟨busyWith .organize [], rfl⟩,
    ⟨{ busyWith i [1#8, 2#8] with ilen := 3#16 }, rfl, by cases i <;> decide, rfl, by cases i <;> decide⟩⟩

theorem witness_BuildCommand : buildS7.eng = .busy .build ∧ buildS7.holds [] :=
  ⟨rfl, inBytes_ok.mp rfl⟩

theorem witness_ChecksumCommand :
    (busyWith .checksum [1#8, 2#8, 3#8]).eng = .busy .checksum ∧
    (busyWith .checksum [1#8, 2#8, 3#8]).holds [1#8, 2#8, 3#8] :=
  ⟨rfl, inBytes_ok.mp (by decide)⟩

theorem witness_OrganizeCommand :
    (busyWith .organize [1#8, 2#8, 3#8]).eng = .busy .organize ∧
    (busyWith .organize [1#8, 2#8, 3#8]).holds [1#8, 2#8, 3#8] :=
  ⟨rfl, inBytes_ok.mp (by decide)⟩

/-- An accept, an ERR_LEN, a commit and a turned-away command all answer next states. -/
theorem witness_CommandFrame :
    (stateOf (exec .checksum State.reset)).isSome ∧
    (stateOf (exec .build { State.reset with ilen := 1025#16 })).isSome ∧
    (stateOf (exec .organize (busyWith .organize [1#8]))).isSome ∧
    (stateOf (exec .organize (busyWith .build []))).isSome := by decide

/-- The CMD write clauses: each word, an idle block at the capacity and above it, and a busy one. -/
theorem witness_CmdWriteAccept :
    (∃ s : State, s.eng = .idle ∧ 1024 < s.ilen.toNat ∧ (0x00000003#32 : Word) = 0x00000003#32) ∧
    (∃ s : State, s.eng = .idle ∧ s.ilen.toNat ≤ 1024) ∧ (∃ s : State, s.eng = .busy .checksum) :=
  ⟨⟨{ State.reset with ilen := 1025#16 }, by decide⟩, ⟨{ State.reset with ilen := 1024#16 }, by decide⟩,
    ⟨busyWith .checksum [], rfl⟩⟩

theorem witness_EmptyInputChecksum :
    (busyWith .checksum []).eng = .busy .checksum ∧ (busyWith .checksum []).ilen = 0x0000#16 := by decide

/-- V-BLD-1 committed, then its seven bytes before the checksum loaded for CHECKSUM (V-CMD-11). -/
theorem witness_ReceiveSideCheck :
    let frame := [0x48#8, 0x5A#8, 0x04#8, 0x02#8, 0x01#8, 0x00#8, 0x01#8, 0xE3#8]
    let t : State := { buildS7 with out := frame, crc32 := 0x2C35A2E3#32, crcByte := 0xE3#8, eng := .idle, done := true }
    let u := busyWith .checksum (frame.take 7)
    buildS7.eng = .busy .build ∧ exec .build buildS7 = .next t ∧ u.eng = .busy .checksum ∧
      u.holds (t.out.take (t.out.length - 1)) := by
  refine ⟨rfl, ?_, rfl, inBytes_ok.mp (by decide)⟩
  rw [exec_busy .build rfl]
  exact commit_next.mpr ⟨[], inBytes_ok.mp rfl, by decide +kernel⟩

theorem witness_StepRunsDecodedCommand :
    (writing 0x000#14 0x00000002#32 State.reset).eng = .idle ∧
    (writing 0x000#14 0x00000002#32 State.reset).schedule = [.host (.write 0x000#14 4 0x00000002#32)] ∧
    decode 0x00000002#32 = .ok .checksum ∧ decodeTableWord 32 2 = some .checksum ∧ 2 < 2 ^ 32 := by decide

theorem witness_StepCommitsAcceptedCommand :
    ({ buildS7 with schedule := [.engine] } : State).eng = .busy .build ∧ buildS7.schedule = [] ∧
    ({ buildS7 with schedule := [.wait 0, .reset] } : State).schedule = [.wait 0, .reset] ∧
    ({ buildS7 with schedule := [.wait 1, .reset] } : State).schedule = [.wait (0 + 1), .reset] ∧
    State.reset.ended ∧ ({ State.reset with schedule := [.engine] } : State).eng = .idle ∧
    ({ State.reset with schedule := [.wait 0] } : State).schedule = [.wait 0] :=
  ⟨rfl, rfl, rfl, rfl, ⟨rfl, rfl⟩, rfl, rfl⟩

/-- An accept, a commit, and a step that stays busy. -/
theorem witness_EngTransitions :
    (stateOf (step (writing 0x000#14 1 State.reset))).map State.eng = some (.busy .build) ∧
    (stateOf (step (busyWith .organize []))).map State.eng = some .idle ∧
    (stateOf (step (writing 0x010#14 1 (busyWith .organize [])))).map State.eng = some (.busy .organize) := by
  decide

theorem witness_InputsFixedWhileBusy :
    (stateOf (step (writing 0x01C#14 1 (busyWith .checksum [1#8])))).isSome ∧
    (writing 0x01C#14 1 (busyWith .checksum [1#8])).eng = .busy .checksum ∧
    ∀ rest, (writing 0x01C#14 1 (busyWith .checksum [1#8])).schedule ≠ .reset :: rest :=
  ⟨by decide, rfl, fun rest h => by cases h⟩

/-- A commit of ORGANIZE changes OUT, and one of CHECKSUM changes CRC32. -/
theorem witness_ResultsChangeOnlyAtCommit :
    (stateOf (step (busyWith .organize [1#8]))).map State.out = some [0#8, 0#8, 0#8, 1#8] ∧
    (busyWith .organize [1#8]).out = [] ∧
    (stateOf (step (busyWith .checksum []))).map State.crc32 = some 0xFFFFFFFF#32 ∧
    (busyWith .checksum []).crc32 = 0#32 ∧ (∀ rest, (busyWith .checksum []).schedule ≠ .reset :: rest) :=
  ⟨by decide, rfl, by decide +kernel, rfl, fun rest h => by cases h⟩

/-- The last cell changes by a host write, and a written cell by a reset. -/
theorem witness_InputCellsChangeOnlyByHostWrite :
    (stateOf (step (writing 0x1FFC#14 7 State.reset))).map (fun t => Memory.read t.ibuf 1023) = some (some 7#8) ∧
    Memory.read State.reset.ibuf 1023 = none ∧
    (stateOf (step { loaded [1#8] with schedule := [.reset] })).map (fun t => Memory.read t.ibuf 0) = some none ∧
    Memory.read (loaded [1#8]).ibuf 0 = some 1#8 := by decide

theorem witness_UnsupportedAccessFaults :
    ((8 : Nat) ≠ 4 ∨ (0x004#14).extractLsb' 0 2 ≠ 0b00#2) ∧ ((4 : Nat) ≠ 4 ∨ (0x007#14).extractLsb' 0 2 ≠ 0b00#2) := by
  decide

/-- The ends of each range of ReadAtEveryOffset and of the reserved offsets. -/
theorem witness_ReadAtEveryOffset :
    ((0x0030#14).toNat % 4 = 0 ∧ 0x0030 ≤ (0x0030#14).toNat ∧ (0x0030#14).toNat < 0x1000) ∧
    ((0x0FFC#14).toNat % 4 = 0 ∧ 0x0030 ≤ (0x0FFC#14).toNat ∧ (0x0FFC#14).toNat < 0x1000) ∧
    Memory.read (loaded [9#8]).ibuf 0 = some 9#8 ∧ Memory.read (loaded [9#8]).ibuf 1023 = none ∧ 2047 < 2048 := by
  decide

theorem witness_BusyGateOnInputs :
    (busyWith .build []).eng = .busy .build ∧ State.reset.eng = .idle ∧
    ((0x020#14 : Offset) ∉ [0x000#14, 0x00C#14, 0x010#14, 0x014#14, 0x018#14, 0x01C#14] ∧
      ((0x020#14).toNat < 0x1000 ∨ 0x2000 ≤ (0x020#14).toNat)) ∧
    (stateOf (memWrite 0x020#14 4 5 { State.reset with errBusy := true })).map State.errBusy = some true := by decide

theorem witness_ReservedReadsZeroWritesIgnored :
    State.reset.out.length ≤ 1033 ∧ ((0x0FFC#14).toNat % 4 = 0 ∧ (0x0FFC#14).toNat ≤ 0x0FFC) ∧
    (regBits .olen ≤ 16 ∧ memRead (regOffset .olen) 4 State.reset = .ok 0) ∧
    (∀ k, k < regBits .dest → (0x1FF#32).getLsbD k = (0x0FF#32).getLsbD k) :=
  ⟨by decide, by decide, by decide, by decide⟩

theorem witness_IbufWindow :
    State.reset.eng = .idle ∧ 1023 < 1024 ∧ Memory.read State.reset.ibuf 1023 = none ∧
    (stateOf (exec .organize (busyWith .organize [1#8]))).isSome := by decide

theorem witness_ObufWindow :
    (0 < 2048 ∧ ({ State.reset with out := [5#8] } : State).out[0]? = some 5#8) ∧
    (2047 < 2048 ∧ ({ State.reset with out := [5#8] } : State).out.length ≤ 2047) ∧
    (({ State.reset with out := [5#8] } : State).out.length ≤ 1033 ∧ 1033 ≤ 1033) := by decide

/-- The ends of the four ranges of the map. -/
theorem witness_AddressMap :
    ((0x0000#14).toNat % 4 = 0 ∧ (0x002C#14).toNat % 4 = 0 ∧ (0x002C#14).toNat < 0x0030) ∧
    ((0x0030#14).toNat % 4 = 0 ∧ (0x0FFC#14).toNat % 4 = 0 ∧ (0x0FFC#14).toNat < 0x1000) ∧
    ((0x1000#14).toNat % 4 = 0 ∧ (0x1FFC#14).toNat % 4 = 0 ∧ (0x1FFC#14).toNat < 0x2000) ∧
    ((0x2000#14).toNat % 4 = 0 ∧ (0x3FFC#14).toNat % 4 = 0 ∧ 0x2000 ≤ (0x3FFC#14).toNat) := by decide

theorem witness_BusWindow : Config.blockBase + 0x4000 ≤ Config.blockBase + 0x4000 := Nat.le_refl _

theorem witness_WritesIdempotentExceptCmd :
    (0x004#14 : Offset) ≠ 0x000#14 ∧ (stateOf (memWrite 0x004#14 4 2 State.reset)).isSome ∧
    State.reset.eng = .idle ∧ State.reset.ilen.toNat ≤ 1024 := by decide

/-- Each error bit does get set by its cause. -/
theorem witness_ErrorBitCauses :
    (stateOf (step (writing 0x000#14 0 State.reset))).map State.errCmd = some true ∧
    (stateOf (step (writing 0x000#14 2 { State.reset with ilen := 1025#16 }))).map State.errLen = some true ∧
    (stateOf (step (writing 0x1FFC#14 2 (busyWith .build [])))).map State.errBusy = some true := by decide

/-- Each pending bit does get cleared, DONE also by an accept. -/
theorem witness_PendingBitsClearedOnlyBy :
    (stateOf (step (writing 0x004#14 0x1E
      { State.reset with done := true, errCmd := true, errLen := true, errBusy := true }))).map statusWord
      = some 0x00000000#32 ∧
    (stateOf (step (writing 0x000#14 2 { State.reset with done := true }))).map State.done = some false := by decide

theorem witness_ResetSetsEveryElement :
    ({ buildS7 with schedule := [.reset] } : State).schedule = .reset :: [] := rfl

/-- A busy state that meets the invariant, and answers a next state. -/
theorem witness_StepKeepsBlockInvariant :
    (busyWith .organize [1#8]).Inv ∧ (stateOf (step (busyWith .organize [1#8]))).isSome :=
  ⟨⟨rfl, by decide, by decide, rfl, fun _ => by decide, fun _ => rfl⟩, by decide⟩

/-- P4's access 6 before the commit. -/
theorem witness_ResultsFixedAtAccept :
    (busyWith .checksum [1#8, 2#8, 3#8]).eng = .busy .checksum ∧
    (stateOf (run [Access.write 0x01C#14 4 1].length
      { busyWith .checksum [1#8, 2#8, 3#8] with
        schedule := [Access.write 0x01C#14 4 1].map Move.host ++ [.engine] })).isSome ∧
    (stateOf (exec .checksum (busyWith .checksum [1#8, 2#8, 3#8]))).isSome :=
  ⟨rfl, by decide, by decide⟩

theorem witness_AcceptedCommandCommits :
    let s : State := { busyWith .organize [1#8] with schedule := [.host (.read 0x020#14 4), .wait 2] }
    s.eng = .busy .organize ∧ s.inputWritten ∧
      ∀ m ∈ s.schedule, m ≠ .reset ∧ ∀ a, m = .host a → accessHarmless a := by
  refine ⟨rfl, ?_, ?_⟩
  · intro i hi
    have : i < 1 := hi
    have : i = 0 := by omega
    subst this
    decide
  · intro m hm
    simp only [List.mem_cons, List.not_mem_nil, or_false] at hm
    rcases hm with rfl | rfl
    · exact ⟨by decide, by rintro a ⟨⟩; exact ⟨by decide, .inl (by decide)⟩⟩
    · exact ⟨by decide, by rintro a ⟨⟩⟩

theorem witness_LoadinLoadsCells :
    State.reset.eng = .idle ∧ ([0xDE, 0xAD] : List Word).length ≤ 1024 ∧
    ({ State.reset with schedule := lineMoves 0 (.loadin [0xDE, 0xAD]) ++ [.engine] } : State).schedule
      = lineMoves 0 (.loadin [0xDE, 0xAD]) ++ [.engine] := ⟨rfl, by decide, rfl⟩

/-- A command in progress that can commit, an idle block, and a reset that meets a `WAIT`. -/
theorem witness_WaitPollsUntilIdle :
    let s : State := { busyWith .organize [1#8] with schedule := [.wait 2, .engine] }
    (s.eng = .busy .organize ∧ s.schedule = .wait 2 :: [.engine] ∧ (stateOf (exec .organize s)).isSome) ∧
    (State.reset.eng = .idle ∧ ({ State.reset with schedule := [.wait 3] } : State).schedule = [.wait 3]) ∧
    ({ s with schedule := [.reset, .wait 1] } : State).schedule = .reset :: .wait 1 :: [] :=
  ⟨⟨rfl, rfl, by decide⟩, ⟨rfl, rfl⟩, rfl⟩

end Sys2Proof.Tests
end

section
/-! The engine's turn and the `WAIT` (R94, R141): what a step is, by the head of the schedule and ENG. -/

namespace Sys2Proof.Machine

theorem engineMove_busy {s : State} {i : Instr} (he : s.eng = .busy i) : engineMove s = exec i s := by
  simp only [engineMove, he]

theorem engineMove_idle {s : State} (he : s.eng = .idle) : engineMove s = .next s := by
  simp only [engineMove, he]

theorem step_of_schedule_nil {s : State} (h : s.schedule = []) : step s = engineMove s := by
  simp only [step, nextMove, h]

theorem step_of_schedule_engine {s : State} {rest : List Move} (h : s.schedule = .engine :: rest) :
    step s = engineMove { s with schedule := rest } := by
  simp only [step, nextMove, h]

theorem step_of_schedule_wait_zero {s : State} {i : Instr} {rest : List Move} (he : s.eng = .busy i)
    (h : s.schedule = .wait 0 :: rest) : step s = exec i s := by
  simp only [step, nextMove, h, he]

/-- The poll of a `WAIT` reads STATUS of `s` itself: `statusWord` does not depend on what is scheduled. -/
theorem hostMove_statusPoll_schedule (s : State) (rest : List Move) :
    hostMove statusPoll { s with schedule := rest } = .next (s.carried rest ⟨.R, 0x004#14, statusWord s⟩) :=
  hostMove_statusPoll _

theorem step_of_schedule_wait_succ {s : State} {i : Instr} {n : Nat} {rest : List Move} (he : s.eng = .busy i)
    (h : s.schedule = .wait (n + 1) :: rest) :
    step s = .next (s.carried (.wait n :: rest) ⟨.R, 0x004#14, statusWord s⟩) := by
  have hpoll : step s = hostMove statusPoll { s with schedule := .wait n :: rest } := by
    simp only [step, nextMove, h, he]
  exact hpoll.trans (hostMove_statusPoll_schedule s _)

theorem step_of_schedule_wait_idle {s : State} {n : Nat} {rest : List Move} (he : s.eng = .idle)
    (h : s.schedule = .wait n :: rest) :
    step s = .next (s.carried rest ⟨.R, 0x004#14, statusWord s⟩) := by
  have hpoll : step s = hostMove statusPoll { s with schedule := rest } := by
    simp only [step, nextMove, h, he]
  exact hpoll.trans (hostMove_statusPoll_schedule s rest)

/-- Settles O24, one clause at a time, by the equation of `step` for the head of the schedule. -/
theorem stepCommitsAcceptedCommand : Obligations.StepCommitsAcceptedCommand := by
  refine ⟨fun s i rest he => ⟨fun h => ?engine, fun h => ?nothing, fun h => ?lastPoll, fun n h => ?poll⟩,
    fun s rest he => ⟨fun h => ?idleEngine, fun h => ?ended, fun n h => ?idleWait⟩⟩
  case engine => exact (step_of_schedule_engine h).trans (engineMove_busy he)
  case nothing => exact (step_of_schedule_nil h).trans (engineMove_busy he)
  case lastPoll => exact step_of_schedule_wait_zero he h
  case poll => exact step_of_schedule_wait_succ he h
  case idleEngine => exact (step_of_schedule_engine h).trans (engineMove_idle he)
  case ended => exact (step_of_schedule_nil h.1).trans (engineMove_idle he)
  case idleWait => exact step_of_schedule_wait_idle he h

end Sys2Proof.Machine
end

section
/-! The frames of the state: what a command's effect, a command, a host access and a step leave unchanged. -/

namespace Sys2Proof.Machine

/-- `t` holds every operand and every input cell of a command (R38) as `s` does. -/
structure State.SameOperands (s t : State) : Prop where
  dest : t.dest = s.dest
  src : t.src = s.src
  options : t.options = s.options
  code : t.code = s.code
  ilen : t.ilen = s.ilen
  ibuf : t.ibuf = s.ibuf

/-- `t` holds the results of the last commits (R37, R33, R34) as `s` does. -/
structure State.SameResults (s t : State) : Prop where
  out : t.out = s.out
  crc32 : t.crc32 = s.crc32
  crcByte : t.crcByte = s.crcByte

/-- `t` holds the three error bits (R25) as `s` does. -/
structure State.SameErrors (s t : State) : Prop where
  errCmd : t.errCmd = s.errCmd
  errLen : t.errLen = s.errLen
  errBusy : t.errBusy = s.errBusy

/-- The command in progress is where it was: ENG, what the command will read, and what the last commits left. -/
structure State.SameJob (s t : State) : Prop extends s.SameOperands t, s.SameResults t where
  eng : t.eng = s.eng

theorem State.SameJob.of_sameBlock {s t : State} (h : s.sameBlock t) : s.SameJob t := by
  rw [h]
  exact ⟨⟨rfl, rfl, rfl, rfl, rfl, rfl⟩, ⟨rfl, rfl, rfl⟩, rfl⟩

theorem State.SameJob.trans {s t u : State} (h : s.SameJob t) (g : t.SameJob u) : s.SameJob u where
  dest := g.dest.trans h.dest
  src := g.src.trans h.src
  options := g.options.trans h.options
  code := g.code.trans h.code
  ilen := g.ilen.trans h.ilen
  ibuf := g.ibuf.trans h.ibuf
  out := g.out.trans h.out
  crc32 := g.crc32.trans h.crc32
  crcByte := g.crcByte.trans h.crcByte
  eng := g.eng.trans h.eng

/-- Carrying an access changes nothing of the block. -/
theorem State.sameJob_carried (s : State) (rest : List Move) (c : BusCycle) : s.SameJob (s.carried rest c) :=
  .of_sameBlock rfl

theorem State.sameJob_withSchedule (s : State) (rest : List Move) : s.SameJob { s with schedule := rest } :=
  .of_sameBlock rfl

/-- The input a command consumes is a matter of ILEN and the cells alone (R141). -/
theorem State.SameOperands.holds_iff {s t : State} (h : s.SameOperands t) (p : List Byte) :
    t.holds p ↔ s.holds p := by
  simp only [State.holds, h.ilen, h.ibuf]

theorem State.busy_eq_true_iff {s : State} : s.busy = true ↔ s.eng ≠ .idle := by
  cases h : s.eng <;> simp [State.busy, h]

theorem State.exists_busy_of_busy {s : State} (h : s.busy = true) : ∃ op, s.eng = .busy op := by
  cases he : s.eng with
  | idle => exact absurd he (State.busy_eq_true_iff.mp h)
  | busy op => exact ⟨op, rfl⟩

/-! ### The effect of a command -/

section Effect

variable (i : Instr) (p : List Byte) (s : State)

@[simp] theorem effectOf_errCmd : (effectOf i p s).errCmd = s.errCmd := by rw [effectOf_frame]
@[simp] theorem effectOf_errLen : (effectOf i p s).errLen = s.errLen := by rw [effectOf_frame]
@[simp] theorem effectOf_errBusy : (effectOf i p s).errBusy = s.errBusy := by rw [effectOf_frame]
@[simp] theorem effectOf_irqEn : (effectOf i p s).irqEn = s.irqEn := by rw [effectOf_frame]
@[simp] theorem effectOf_dest : (effectOf i p s).dest = s.dest := by rw [effectOf_frame]
@[simp] theorem effectOf_src : (effectOf i p s).src = s.src := by rw [effectOf_frame]
@[simp] theorem effectOf_options : (effectOf i p s).options = s.options := by rw [effectOf_frame]
@[simp] theorem effectOf_code : (effectOf i p s).code = s.code := by rw [effectOf_frame]
@[simp] theorem effectOf_ilen : (effectOf i p s).ilen = s.ilen := by rw [effectOf_frame]
@[simp] theorem effectOf_ibuf : (effectOf i p s).ibuf = s.ibuf := by rw [effectOf_frame]
@[simp] theorem effectOf_schedule : (effectOf i p s).schedule = s.schedule := by rw [effectOf_frame]
@[simp] theorem effectOf_trace : (effectOf i p s).trace = s.trace := by rw [effectOf_frame]

/-- CHECKSUM keeps OUT (R143). -/
@[simp] theorem effectOf_checksum_out : (effectOf .checksum p s).out = s.out := rfl

/-- ORGANIZE keeps the CRC registers (R144). -/
@[simp] theorem effectOf_organize_crc32 : (effectOf .organize p s).crc32 = s.crc32 := rfl
@[simp] theorem effectOf_organize_crcByte : (effectOf .organize p s).crcByte = s.crcByte := rfl

end Effect

theorem eq_build_or_organize_of_effectOf_out_ne {i : Instr} {p : List Byte} {s : State}
    (h : (effectOf i p s).out ≠ s.out) : i = .build ∨ i = .organize := by
  cases i with
  | build => exact .inl rfl
  | checksum => exact absurd (effectOf_checksum_out p s) h
  | organize => exact .inr rfl

theorem eq_build_or_checksum_of_effectOf_crc_ne {i : Instr} {p : List Byte} {s : State}
    (h : (effectOf i p s).crc32 ≠ s.crc32 ∨ (effectOf i p s).crcByte ≠ s.crcByte) :
    i = .build ∨ i = .checksum := by
  cases i with
  | build => exact .inl rfl
  | checksum => exact .inr rfl
  | organize => simp at h

/-- The effect of a command is a function of its operands, its input and the results it keeps. -/
theorem State.SameJob.effectOf_sameResults {s t : State} (h : s.SameJob t) (i : Instr) (p : List Byte) :
    (effectOf i p s).SameResults (effectOf i p t) := by
  cases i with
  | build => constructor <;> simp only [effectOf, buildEffect, h.dest, h.src, h.options, h.code]
  | checksum => exact ⟨h.out, rfl, rfl⟩
  | organize => exact ⟨rfl, h.crc32, h.crcByte⟩

/-- No command changes an operand or a cell, whatever event it is at (R36, R38). -/
theorem exec_sameOperands {i : Instr} {s t : State} (h : exec i s = .next t) : s.SameOperands t := by
  obtain ⟨-, -, rfl⟩ | ⟨-, -, rfl⟩ | ⟨-, p, -, rfl⟩ | ⟨op, -, -, rfl⟩ := exec_next h
  case inr.inr.inl => constructor <;> simp
  all_goals exact ⟨rfl, rfl, rfl, rfl, rfl, rfl⟩

/-- The commit, with its input written (R141). -/
theorem exec_of_holds {i : Instr} {s : State} {p : List Byte} (he : s.eng = .busy i) (hp : s.holds p) :
    exec i s = .next { effectOf i p s with eng := .idle, done := true } :=
  (exec_busy i he).trans (commit_next.mpr ⟨p, hp, rfl⟩)

/-! ### A write of the host -/

namespace WriteKind

variable {off : Offset} {d : Word} {s t : State}

/-- No write changes a result (R169, R171, R174). -/
theorem sameResults (h : WriteKind off d s t) : s.SameResults t := by
  cases h <;> constructor <;> simp only [*, statusW1C_out, statusW1C_crc32, statusW1C_crcByte]

theorem schedule_eq (h : WriteKind off d s t) : t.schedule = s.schedule := by
  cases h <;> simp only [*, statusW1C_schedule]

/-- Only the accept of a command within capacity changes ENG (R22, R140). -/
theorem eng_cases (h : WriteKind off d s t) :
    t.eng = s.eng ∨ ∃ i, off = 0x000#14 ∧ d = encode i ∧ s.eng = .idle ∧ s.ilen.toNat ≤ 1024 ∧
      t = { s with done := false, eng := .busy i } := by
  cases h with
  | accepted i ho hd he hl ht => exact .inr ⟨i, ho, hd, he, hl, ht⟩
  | _ => left; simp only [*, statusW1C_eng]

/-- Only a write to a cell's own entry of an idle block changes the cells (R170). -/
theorem ibuf_cases (h : WriteKind off d s t) :
    t.ibuf = s.ibuf ∨ ∃ i, i < Config.ibufCap ∧ s.eng = .idle ∧ off = ibufOffset i ∧
      t.ibuf = Memory.write s.ibuf i (d.setWidth 8) := by
  cases h with
  | inputCell i hi he ho ht => exact .inr ⟨i, hi, he, ho, by rw [ht]⟩
  | _ => left; simp only [*, statusW1C_ibuf]

/-- The busy gate (R173): while a command is in progress no write reaches what it reads. -/
theorem sameOperands_of_busy (h : WriteKind off d s t) {op : Instr} (hb : s.eng = .busy op) :
    s.SameOperands t := by
  have absurdIdle (he : s.eng = .idle) : s.SameOperands t := by rw [hb] at he; cases he
  cases h with
  | accepted _ _ _ he => exact absurdIdle he
  | tooLong _ _ _ he => exact absurdIdle he
  | reservedWord _ _ he => exact absurdIdle he
  | inputReg _ _ _ _ _ he => exact absurdIdle he
  | inputCell _ _ he => exact absurdIdle he
  | dropped _ _ _ ht => subst ht; exact ⟨rfl, rfl, rfl, rfl, rfl, rfl⟩
  | w1c _ ht => subst ht; exact ⟨rfl, rfl, rfl, rfl, rfl, rfl⟩
  | enables _ ht => subst ht; exact ⟨rfl, rfl, rfl, rfl, rfl, rfl⟩
  | nothing ht => subst ht; exact ⟨rfl, rfl, rfl, rfl, rfl, rfl⟩

theorem eng_of_busy (h : WriteKind off d s t) {op : Instr} (hb : s.eng = .busy op) : t.eng = s.eng := by
  obtain he | ⟨_, _, _, he, _⟩ := h.eng_cases
  · exact he
  · rw [hb] at he; cases he

theorem sameJob_of_busy (h : WriteKind off d s t) {op : Instr} (hb : s.eng = .busy op) : s.SameJob t :=
  { h.sameOperands_of_busy hb, h.sameResults with eng := h.eng_of_busy hb }

end WriteKind

/-- A host access that answers a next state: the bus has carried it, and a write has done what it can. -/
theorem hostMove_next {a : Access} {s t : State} (h : hostMove a s = .next t) :
    (∃ c, t = s.record c) ∨
    ∃ off d, a = .write off 4 d ∧ WriteKind off d (s.record ⟨.W, off, d⟩) t := by
  cases a with
  | read off size =>
    rw [hostMove] at h
    split at h <;> cases h
    exact .inl ⟨_, rfl⟩
  | write off size d =>
    by_cases hz : size = 4
    · subst hz
      exact .inr ⟨off, d, rfl, (memWrite_kind h).2⟩
    · have hns : supported off size = false := by simp [← Bool.not_eq_true, supported_iff, hz]
      simp [hostMove, memWrite, hns] at h

theorem step_of_schedule_host {s : State} {a : Access} {rest : List Move} (h : s.schedule = .host a :: rest) :
    step s = hostMove a { s with schedule := rest } := by
  simp only [step, nextMove, h]

/-- Between accept and commit a host access leaves the command in progress as it is, and only uses up its place in
the schedule. -/
theorem step_host_of_busy {s t : State} {a : Access} {rest : List Move} {op : Instr} (hb : s.eng = .busy op)
    (hs : s.schedule = .host a :: rest) (h : step s = .next t) : s.SameJob t ∧ t.schedule = rest := by
  rw [step_of_schedule_host hs] at h
  obtain ⟨c, rfl⟩ | ⟨off, d, -, hw⟩ := hostMove_next h
  · exact ⟨s.sameJob_carried rest c, rfl⟩
  · exact ⟨(s.sameJob_carried rest _).trans (hw.sameJob_of_busy hb), hw.schedule_eq⟩

end Sys2Proof.Machine
end

section
/-! The invariant of the block: it holds at reset, and every step keeps it. -/

namespace Sys2Proof.Machine

/-- Settles O46, field by field of `State.reset`. -/
theorem resetMeetsBlockInvariant : Obligations.ResetMeetsBlockInvariant :=
  ⟨reset_ibuf_wf, rfl, Nat.zero_le _, rfl, nofun, nofun⟩

/-- The invariant does not read the schedule or the trace. -/
theorem State.Inv.of_sameBlock {s t : State} (h : s.Inv) (hst : s.sameBlock t) : t.Inv := by
  rw [hst]
  exact ⟨h.ibuf_wf, h.ibuf_inCap, h.out_le, h.crcByte_low, h.busy_ilen, h.busy_done⟩

/-- The largest frame BUILD makes of at most `IBUF_CAP` bytes has `MAX_FRAME` bytes (R37, R90), and ORGANIZE makes
no more than `IBUF_CAP` of them. -/
theorem length_effectOf_out_le (i : Instr) {p : List Byte} {s : State} (hp : p.length ≤ Config.ibufCap)
    (hs : s.out.length ≤ Config.maxFrame) : (effectOf i p s).out.length ≤ Config.maxFrame := by
  simp only [Config.ibufCap, Config.maxFrame] at hp hs ⊢
  cases i with
  | build =>
    have hhp := codeHp_le s.code
    change (buildFrame s.dest s.src s.options s.code p).1.length ≤ 1033
    rw [length_buildFrame]
    omega
  | checksum => exact hs
  | organize =>
    change (organize p).length ≤ 1033
    rw [length_organize]
    omega

/-- Every command that writes CRC32 writes its low byte into CRC_BYTE (R34). -/
theorem effectOf_crcByte_low (i : Instr) (p : List Byte) {s : State} (h : s.crcByte = s.crc32.setWidth 8) :
    (effectOf i p s).crcByte = (effectOf i p s).crc32.setWidth 8 := by
  cases i with
  | build => rfl
  | checksum => rfl
  | organize => exact h

theorem State.Inv.after_commit {s : State} (h : s.Inv) {i : Instr} {p : List Byte} (he : s.eng = .busy i)
    (hp : s.holds p) : State.Inv { effectOf i p s with eng := .idle, done := true } where
  ibuf_wf := by simpa using h.ibuf_wf
  ibuf_inCap := by simpa using h.ibuf_inCap
  out_le :=
    have hlen : p.length ≤ Config.ibufCap := by
      rw [hp.1]
      exact h.busy_ilen (State.busy_eq_true_iff.mpr (by simp [he]))
    length_effectOf_out_le i hlen h.out_le
  crcByte_low := effectOf_crcByte_low i p h.crcByte_low
  busy_ilen := nofun
  busy_done := nofun

/-- A write never sets DONE (R25). -/
theorem WriteKind.done_eq_false {off : Offset} {d : Word} {s t : State} (h : WriteKind off d s t)
    (hs : s.done = false) : t.done = false := by
  cases h <;> simp [*]

/-- After a write a command is in progress only if it was so before or was accepted by that write, so the two
clauses on a busy block hold. -/
theorem WriteKind.busy_clauses {off : Offset} {d : Word} {s t : State} (h : WriteKind off d s t) (hi : s.Inv)
    (hb : t.busy = true) : t.ilen.toNat ≤ Config.ibufCap ∧ t.done = false := by
  obtain he | ⟨i, -, -, -, hl, rfl⟩ := h.eng_cases
  · have hbs : s.busy = true := by simpa only [State.busy, he] using hb
    obtain ⟨op, hop⟩ := State.exists_busy_of_busy hbs
    rw [(h.sameOperands_of_busy hop).ilen]
    exact ⟨hi.busy_ilen hbs, h.done_eq_false (hi.busy_done hbs)⟩
  · exact ⟨hl, rfl⟩

theorem WriteKind.keeps_inv {off : Offset} {d : Word} {s t : State} (h : WriteKind off d s t) (hi : s.Inv) :
    t.Inv := by
  have hres := h.sameResults
  obtain ⟨hwf, hcap⟩ : Memory.wf t.ibuf = true ∧ Memory.inCap t.ibuf = true := by
    obtain hm | ⟨k, hk, -, -, hm⟩ := h.ibuf_cases <;> rw [hm]
    · exact ⟨hi.ibuf_wf, hi.ibuf_inCap⟩
    · exact ⟨Memory.write_keeps_wf k _ hi.ibuf_wf, Memory.write_keeps_inCap _ hk hi.ibuf_inCap⟩
  exact {
    ibuf_wf := hwf
    ibuf_inCap := hcap
    out_le := hres.out ▸ hi.out_le
    crcByte_low := by rw [hres.crcByte, hres.crc32]; exact hi.crcByte_low
    busy_ilen := fun hb => (h.busy_clauses hi hb).1
    busy_done := fun hb => (h.busy_clauses hi hb).2 }

/-- Settles O47, by what a step can do: a reset, a commit, a step of the schedule and trace alone, or a write. -/
theorem stepKeepsBlockInvariant : Obligations.StepKeepsBlockInvariant := by
  intro s t hi h
  cases step_kind h with
  | reset rest hs ht => exact resetMeetsBlockInvariant.of_sameBlock (by rw [ht]; rfl)
  | commit i rest p he hs hp ht =>
    subst ht
    exact (hi.of_sameBlock (t := { s with schedule := rest }) rfl).after_commit he hp
  | quiet rest tr ht => exact hi.of_sameBlock (by rw [ht]; rfl)
  | write off d rest hs hw => exact hw.keeps_inv (hi.of_sameBlock rfl)

end Sys2Proof.Machine
end

section
/-! What a step can change: ENG, the operands, the cells, the results and the STATUS bits, each by its own cause. -/

namespace Sys2Proof.Machine

/-- Settles O20, over the four events `exec` can answer with: a refusal, an accept, a commit, and a command that
meets another in progress. -/
theorem commandFrame : Obligations.CommandFrame := by
  intro i s t h
  have hop := exec_sameOperands h
  have hown : t.irqEn = s.irqEn ∧ t.errCmd = s.errCmd ∧ t.schedule = s.schedule ∧ t.trace = s.trace := by
    obtain ⟨-, -, rfl⟩ | ⟨-, -, rfl⟩ | ⟨-, p, -, rfl⟩ | ⟨op, -, -, rfl⟩ := exec_next h <;> simp
  refine ⟨⟨hop.dest, hop.src, hop.options, hop.code, hop.ilen, hown⟩, fun a => by rw [hop.ibuf], ?_⟩
  obtain ⟨he, hl, rfl⟩ | ⟨he, -, rfl⟩ | ⟨he, p, -, rfl⟩ | ⟨op, hne, he, rfl⟩ := exec_next h
  · exact ⟨fun _ => rfl, fun _ => ⟨rfl, rfl⟩, fun _ => ⟨he, hl, rfl⟩, absurd rfl, absurd rfl⟩
  · exact ⟨fun _ => rfl, fun _ => ⟨rfl, rfl⟩, absurd rfl, fun _ => .inl ⟨he, rfl, rfl⟩, absurd rfl⟩
  · refine ⟨?out, ?crc, absurd (effectOf_errLen i p s), fun _ => .inr ⟨he, rfl, rfl⟩, absurd (effectOf_errBusy i p s)⟩
    case out => rintro (rfl | hne); exacts [rfl, absurd he hne]
    case crc => rintro (rfl | hne); exacts [⟨rfl, rfl⟩, absurd he hne]
  · exact ⟨fun _ => rfl, fun _ => ⟨rfl, rfl⟩, absurd rfl, absurd rfl, fun _ => ⟨op, hne, he⟩⟩

/-- A step from a busy block that is no reset reaches no operand and no cell. -/
theorem step_sameOperands_of_busy {s t : State} {op : Instr} (h : step s = .next t) (hb : s.eng = .busy op)
    (hr : ∀ rest, s.schedule ≠ .reset :: rest) : s.SameOperands t := by
  cases step_kind h with
  | reset rest hs => exact absurd hs (hr rest)
  | commit i rest p he hs hp ht => subst ht; constructor <;> simp
  | quiet rest tr ht => exact (State.SameJob.of_sameBlock (by rw [ht]; rfl)).toSameOperands
  | write off d rest hs hw =>
    exact ((s.sameJob_carried rest _).trans (hw.sameJob_of_busy hb)).toSameOperands

/-- Settles O26, by the busy gate on writes and the frame of a commit. -/
theorem inputsFixedWhileBusy : Obligations.InputsFixedWhileBusy := by
  intro s t op h hb hr
  obtain ⟨hdest, hsrc, hoptions, hcode, hilen, hibuf⟩ := step_sameOperands_of_busy h hb hr
  exact ⟨hdest, hsrc, hoptions, hcode, hilen, fun i => by rw [hibuf]⟩

/-- What a step does to ENG: nothing, or it is a reset, the commit of the command in progress, or an accept (R22). -/
theorem step_eng_cases {s t : State} (h : step s = .next t) :
    t.eng = s.eng ∨
    (t.eng = .idle ∧ ∃ rest, s.schedule = .reset :: rest) ∨
    (∃ i, s.eng = .busy i ∧ t.eng = .idle ∧ ∃ u : State, s.sameBlock u ∧ exec i u = .next t) ∨
    ∃ i rest, s.eng = .idle ∧ t.eng = .busy i ∧ s.schedule = .host (.write 0x000#14 4 (encode i)) :: rest := by
  cases step_kind h with
  | reset rest hs ht => exact .inr (.inl ⟨by rw [ht]; rfl, rest, hs⟩)
  | commit i rest p he hs hp ht =>
    exact .inr (.inr (.inl ⟨i, he, by rw [ht], { s with schedule := rest }, rfl, ht ▸ exec_of_holds he hp⟩))
  | quiet rest tr ht => exact .inl (by rw [ht])
  | write off d rest hs hw =>
    obtain he | ⟨i, rfl, rfl, hi, -, rfl⟩ := hw.eng_cases
    · exact .inl he
    · exact .inr (.inr (.inr ⟨i, rest, hi, rfl, hs⟩))

/-- Settles O25: in each of the four cases of `step_eng_cases` the other transitions are excluded by ENG itself. -/
theorem engTransitions : Obligations.EngTransitions := by
  intro s t h
  obtain he | ⟨he, hreset⟩ | ⟨i, hb, he, hu⟩ | ⟨i, rest, hi, he, hs⟩ := step_eng_cases h
  · rw [he]
    exact ⟨fun _ hi hb => by simp [hi] at hb, fun _ hb hi => by simp [hi] at hb,
      fun _ _ hb hb' => by simpa [hb] using hb'.symm⟩
  · rw [he]
    exact ⟨fun _ _ => nofun, fun _ _ _ => .inl hreset, fun _ _ _ => nofun⟩
  · rw [hb, he]
    exact ⟨fun _ => nofun, fun op hop _ => .inr (Eng.busy.inj hop ▸ hu), fun _ _ _ => nofun⟩
  · rw [hi, he]
    exact ⟨fun op _ hop => ⟨rest, Eng.busy.inj hop ▸ hs⟩, fun _ => nofun, fun _ _ => nofun⟩

/-- A step that is no reset keeps the results, unless it is a commit (R37, R148, R174). -/
theorem step_results_cases {s t : State} (h : step s = .next t) (hr : ∀ rest, s.schedule ≠ .reset :: rest) :
    s.SameResults t ∨ ∃ i p rest, s.eng = .busy i ∧
      t = { effectOf i p { s with schedule := rest } with eng := .idle, done := true } := by
  cases step_kind h with
  | reset rest hs => exact absurd hs (hr rest)
  | commit i rest p he hs hp ht => exact .inr ⟨i, p, rest, he, ht⟩
  | quiet rest tr ht => exact .inl (State.SameJob.of_sameBlock (by rw [ht]; rfl)).toSameResults
  | write off d rest hs hw =>
    obtain ⟨hout, hcrc32, hcrcByte⟩ := hw.sameResults
    exact .inl ⟨hout, hcrc32, hcrcByte⟩

/-- Settles O27: a commit keeps the results its command does not write, and no other step reaches them. -/
theorem resultsChangeOnlyAtCommit : Obligations.ResultsChangeOnlyAtCommit := by
  intro s t h hr
  obtain ⟨hout, hcrc32, hcrcByte⟩ | ⟨i, p, rest, he, rfl⟩ := step_results_cases h hr
  · exact ⟨absurd hout, fun hne => hne.elim (absurd hcrc32) (absurd hcrcByte)⟩
  · refine ⟨fun hne => ⟨?out, rfl, rfl⟩, fun hne => ⟨?crc, rfl, rfl⟩⟩
    case out =>
      obtain rfl | rfl := eq_build_or_organize_of_effectOf_out_ne hne
      exacts [.inl he, .inr he]
    case crc =>
      obtain rfl | rfl := eq_build_or_checksum_of_effectOf_crc_ne hne
      exacts [.inl he, .inr he]

/-- Settles O28: the only write that reaches the cells is the one to cell `k`'s own entry, and it is read back only
there. -/
theorem inputCellsChangeOnlyByHostWrite : Obligations.InputCellsChangeOnlyByHostWrite := by
  intro s t i h hne
  cases step_kind h with
  | reset rest hs => exact .inl ⟨rest, hs⟩
  | commit c rest p he hs hp ht => subst ht; simp at hne
  | quiet rest tr ht => subst ht; exact absurd rfl hne
  | write off d rest hs hw =>
    obtain hm | ⟨k, hk, he, rfl, hm⟩ := hw.ibuf_cases
    · exact absurd (congrArg (Memory.read · i) hm) hne
    · rw [hm, Memory.read_write] at hne ⊢
      obtain rfl : k = i := by
        by_contra hki
        simp [hki] at hne
      exact .inr ⟨d, rest, hs, he, hk, if_pos rfl⟩

/-! ### The STATUS bits -/

namespace WriteKind

variable {off : Offset} {d : Word} {s t : State}

theorem errCmd_set (h : WriteKind off d s t) (hs : s.errCmd = false) (ht : t.errCmd = true) :
    off = 0x000#14 ∧ s.eng = .idle ∧ ∀ i, d ≠ encode i := by
  cases h with
  | reservedWord ho hd he => exact ⟨ho, he, hd⟩
  | _ => simp_all

theorem errLen_set (h : WriteKind off d s t) (hs : s.errLen = false) (ht : t.errLen = true) :
    off = 0x000#14 ∧ s.eng = .idle ∧ 1024 < s.ilen.toNat ∧ ∃ i, d = encode i := by
  cases h with
  | tooLong i ho hd he hl => exact ⟨ho, he, hl, i, hd⟩
  | _ => simp_all

theorem errBusy_set (h : WriteKind off d s t) (hs : s.errBusy = false) (ht : t.errBusy = true) :
    s.eng ≠ .idle ∧ (off ∈ [0x000#14, 0x00C#14, 0x010#14, 0x014#14, 0x018#14, 0x01C#14] ∨
      (0x1000 ≤ off.toNat ∧ off.toNat < 0x2000)) := by
  cases h with
  | dropped op he ho => exact ⟨by simp [he], ho⟩
  | _ => simp_all

theorem errCmd_cleared (h : WriteKind off d s t) (hs : s.errCmd = true) (ht : t.errCmd = false) :
    off = 0x004#14 ∧ d.getLsbD 2 = true := by
  cases h with
  | w1c ho hw => exact ⟨ho, by simpa [hw, hs] using ht⟩
  | _ => simp_all

theorem errLen_cleared (h : WriteKind off d s t) (hs : s.errLen = true) (ht : t.errLen = false) :
    off = 0x004#14 ∧ d.getLsbD 3 = true := by
  cases h with
  | w1c ho hw => exact ⟨ho, by simpa [hw, hs] using ht⟩
  | _ => simp_all

theorem errBusy_cleared (h : WriteKind off d s t) (hs : s.errBusy = true) (ht : t.errBusy = false) :
    off = 0x004#14 ∧ d.getLsbD 4 = true := by
  cases h with
  | w1c ho hw => exact ⟨ho, by simpa [hw, hs] using ht⟩
  | _ => simp_all

theorem done_cleared (h : WriteKind off d s t) (hs : s.done = true) (ht : t.done = false) :
    (off = 0x004#14 ∧ d.getLsbD 1 = true) ∨
    ∃ i, off = 0x000#14 ∧ d = encode i ∧ s.eng = .idle ∧ s.ilen.toNat ≤ 1024 := by
  cases h with
  | accepted i ho hd he hl => exact .inr ⟨i, ho, hd, he, hl⟩
  | w1c ho hw => exact .inl ⟨ho, by simpa [hw, hs] using ht⟩
  | _ => simp_all

end WriteKind

/-- Only a reset or a host write sets or clears an error bit or clears DONE: a commit does neither (R181, R185). -/
theorem step_status_cases {s t : State} (h : step s = .next t) :
    (∃ rest, s.schedule = .reset :: rest ∧ t = resetBlock { s with schedule := rest }) ∨
    (s.SameErrors t ∧ (s.done = true → t.done = true)) ∨
    ∃ off d rest, s.schedule = .host (.write off 4 d) :: rest ∧
      WriteKind off d (s.carried rest ⟨.W, off, d⟩) t := by
  cases step_kind h with
  | reset rest hs ht => exact .inl ⟨rest, hs, ht⟩
  | commit i rest p he hs hp ht => subst ht; exact .inr (.inl ⟨by constructor <;> simp, fun _ => rfl⟩)
  | quiet rest tr ht => subst ht; exact .inr (.inl ⟨⟨rfl, rfl, rfl⟩, id⟩)
  | write off d rest hs hw => exact .inr (.inr ⟨off, d, rest, hs, hw⟩)

/-- Settles O42: a reset sets no error bit, and each is set only by the kind of write its row of R181 names. -/
theorem errorBitCauses : Obligations.ErrorBitCauses := by
  intro s t h
  obtain ⟨rest, -, rfl⟩ | ⟨⟨hcmd, hlen, hbusy⟩, -⟩ | ⟨off, d, rest, hs, hw⟩ := step_status_cases h
  · exact ⟨nofun, nofun, nofun⟩
  · rw [hcmd, hlen, hbusy]
    exact ⟨fun h0 h1 => by simp [h0] at h1, fun h0 h1 => by simp [h0] at h1, fun h0 h1 => by simp [h0] at h1⟩
  · refine ⟨fun h0 h1 => ?cmd, fun h0 h1 => ?len, fun h0 h1 => ?busy⟩
    case cmd =>
      obtain ⟨rfl, he, hd⟩ := hw.errCmd_set h0 h1
      exact ⟨he, d, rest, hs, fun i hi => hd i (decode_ok_iff.mp hi)⟩
    case len =>
      obtain ⟨rfl, he, hl, i, rfl⟩ := hw.errLen_set h0 h1
      exact ⟨he, hl, i, rest, hs⟩
    case busy =>
      obtain ⟨he, ho⟩ := hw.errBusy_set h0 h1
      exact ⟨he, off, d, rest, hs, ho⟩

/-- Settles O43, bit by bit, over the writes that clear it. -/
theorem pendingBitsClearedOnlyBy : Obligations.PendingBitsClearedOnlyBy := by
  intro s t h hr
  obtain ⟨rest, hs, -⟩ | ⟨⟨hcmd, hlen, hbusy⟩, hdone⟩ | ⟨off, d, rest, hs, hw⟩ := step_status_cases h
  · exact absurd hs (hr rest)
  · rw [hcmd, hlen, hbusy]
    exact ⟨fun h0 h1 => by simp [h0] at h1, fun h0 h1 => by simp [h0] at h1, fun h0 h1 => by simp [h0] at h1,
      fun h0 h1 => by simp [hdone h0] at h1⟩
  · refine ⟨fun h0 h1 => ?cmd, fun h0 h1 => ?len, fun h0 h1 => ?busy, fun h0 h1 => ?done⟩
    case cmd =>
      obtain ⟨rfl, hd⟩ := hw.errCmd_cleared h0 h1
      exact ⟨d, rest, hs, hd⟩
    case len =>
      obtain ⟨rfl, hd⟩ := hw.errLen_cleared h0 h1
      exact ⟨d, rest, hs, hd⟩
    case busy =>
      obtain ⟨rfl, hd⟩ := hw.errBusy_cleared h0 h1
      exact ⟨d, rest, hs, hd⟩
    case done =>
      obtain ⟨rfl, hd⟩ | ⟨i, rfl, rfl, he, hl⟩ := hw.done_cleared h0 h1
      · exact .inl ⟨d, rest, hs, hd⟩
      · exact .inr ⟨i, rest, hs, he, hl⟩

end Sys2Proof.Machine
end

section
/-! A command in progress under host accesses: its results are fixed at its accept (R38, R65). -/

namespace Sys2Proof.Machine

/-- Any number of host accesses leaves the command in progress as it is. -/
theorem run_hosts_of_busy {s u : State} {i : Instr} {accesses : List Access} {rest : List Move}
    (hb : s.eng = .busy i) (hs : s.schedule = accesses.map .host ++ rest)
    (h : run accesses.length s = .next u) : s.SameJob u ∧ u.schedule = rest := by
  induction accesses generalizing s with
  | nil => cases h; exact ⟨.of_sameBlock rfl, hs⟩
  | cons a accesses ih =>
    rw [List.length_cons, run_succ] at h
    cases hstep : step s with
    | fault r => simp [hstep] at h
    | refused r => simp [hstep] at h
    | next t =>
      simp only [hstep] at h
      obtain ⟨hj, hrest⟩ := step_host_of_busy hb hs hstep
      obtain ⟨hj', hu⟩ := ih (hj.eng.trans hb) hrest h
      exact ⟨hj.trans hj', hu⟩

/-- Settles O48: the accesses leave the job as it was, so the engine's turn after them is the commit on the same
input, and its effect is the same. -/
theorem resultsFixedAtAccept : Obligations.ResultsFixedAtAccept := by
  intro s u v i accesses hb hrun hexec
  obtain ⟨hj, hu⟩ := run_hosts_of_busy (s := { s with schedule := accesses.map .host ++ [.engine] }) hb rfl hrun
  replace hj : s.SameJob u := (s.sameJob_withSchedule _).trans hj
  obtain ⟨p, hp, rfl⟩ := exec_busy_next hb hexec
  have hub : u.eng = .busy i := hj.eng.trans hb
  have hstep : step u = .next { effectOf i p { u with schedule := [] } with eng := .idle, done := true } := calc
    step u = engineMove { u with schedule := [] } := step_of_schedule_engine hu
    _ = exec i { u with schedule := [] } := engineMove_busy hub
    _ = _ := exec_of_holds hub ((hj.holds_iff p).mpr hp)
  obtain ⟨hout, hcrc32, hcrcByte⟩ := (hj.trans (u.sameJob_withSchedule [])).effectOf_sameResults i p
  exact ⟨⟨hj.out, hj.crc32, hj.crcByte, hub⟩, _, hstep, hout, hcrc32, hcrcByte, rfl, rfl⟩

end Sys2Proof.Machine
end

section
/-! What the host sees of the state at an offset: STATUS, the IBUF and OBUF windows, the values after reset. -/

namespace Sys2Proof.Machine

theorem memRead_ibufOffset {i : Nat} (h : i < 1024) (s : State) : memRead (ibufOffset i) 4 s = ibufRead i s := by
  simp [memRead, supported_ibufOffset h, region_ibufOffset h]

theorem memRead_obufOffset {i : Nat} (h : i < 2048) (s : State) : memRead (obufOffset i) 4 s = .ok (obufRead i s) := by
  simp [memRead, supported_obufOffset h, region_obufOffset h]

theorem memWrite_ibufOffset {i : Nat} (h : i < 1024) (d : Word) (s : State) :
    memWrite (ibufOffset i) 4 d s = .next (ibufWrite i d s) := by
  simp [memWrite, supported_ibufOffset h, region_ibufOffset h]

theorem ibufWrite_idle {s : State} (he : s.eng = .idle) (i : Nat) (d : Word) :
    ibufWrite i d s = { s with ibuf := Memory.write s.ibuf i (d.setWidth 8) } :=
  gatedWrite_idle _ he

theorem ibufRead_written {s : State} {i : Nat} {b : Byte} (h : Memory.read s.ibuf i = some b) :
    ibufRead i s = .ok (b.setWidth 32) := by
  simp only [ibufRead, h]

theorem ibufRead_unwritten {s : State} {i : Nat} (h : Memory.read s.ibuf i = none) :
    ibufRead i s = .error (.unwrittenRead i) := by
  simp only [ibufRead, h]

/-- A write to a cell's entry stores the byte in an idle block (R170). -/
theorem writeGives_ibufOffset_idle {s : State} {i : Nat} (he : s.eng = .idle) (hi : i < 1024) (d : Word) :
    WriteGives s (ibufOffset i) d { s with ibuf := Memory.write s.ibuf i (d.setWidth 8) } :=
  writeGives_of fun rest => (memWrite_ibufOffset hi d _).trans
    (congrArg _ (ibufWrite_idle (s := s.carried rest ⟨.W, ibufOffset i, d⟩) he i d))

/-- A written cell's entry reads the cell's byte (R170). -/
theorem readReturns_ibufOffset {s : State} {i : Nat} {b : Byte} (hi : i < 1024)
    (h : Memory.read s.ibuf i = some b) : ReadReturns s (ibufOffset i) (b.setWidth 32) :=
  readReturns_of fun _ => (memRead_ibufOffset hi _).trans (ibufRead_written h)

theorem hostMove_read_error {off : Offset} {size : Nat} {s : State} {f : Fault} (h : memRead off size s = .error f) :
    hostMove (.read off size) s = .fault f := by
  simp only [hostMove, h]

/-- A read of a register returns what `readReg` says, which is no matter of what is scheduled. -/
theorem readReturns_regOffset (r : Reg) (s : State) : ReadReturns s (regOffset r) (readReg r s) :=
  readReturns_of fun rest => (memRead_regOffset r _).trans (by cases r <;> rfl)

/-- Settles O36, by the laws of the cells and the frame of `exec`. -/
theorem ibufWindow : Obligations.IbufWindow := by
  refine ⟨fun s i d rest he hi => ?store, fun s i rest hi hnone => ?unwritten, fun c s t h => (exec_sameOperands h).ibuf⟩
  case store =>
    refine ⟨_, writeGives_ibufOffset_idle he hi d rest, ?_, fun k hk => Memory.read_write_ne s.ibuf _ hk.symm, rfl⟩
    rw [← BitVec.setWidth_eq_extractLsb' (by decide)]
    exact readReturns_ibufOffset hi (Memory.read_write_same s.ibuf i _)
  case unwritten =>
    rw [step_of_schedule_host rfl]
    exact hostMove_read_error ((memRead_ibufOffset hi _).trans (ibufRead_unwritten hnone))

theorem cmdWrite_idle_of_decode {s : State} {w : Word} {i : Instr} (he : s.eng = .idle) (hd : decode w = .ok i) :
    cmdWrite w s = exec i s := by
  simp only [cmdWrite, he, hd]

/-- In an idle block the CMD write of a command's word is that command (R24, R140). -/
theorem step_command {s : State} {w : Word} {i : Instr} {rest : List Move} (he : s.eng = .idle)
    (hs : s.schedule = .host (.write 0x000#14 4 w) :: rest) (hd : decode w = .ok i) :
    step s = exec i (s.carried rest ⟨.W, 0x000#14, w⟩) := calc
  step s = memWrite (regOffset .cmd) 4 w (s.carried rest ⟨.W, 0x000#14, w⟩) := step_of_schedule_host hs
  _ = cmdWrite w (s.carried rest ⟨.W, 0x000#14, w⟩) := memWrite_regOffset .cmd w _
  _ = exec i (s.carried rest ⟨.W, 0x000#14, w⟩) := cmdWrite_idle_of_decode he hd

theorem decode_of_decodeTableWord {n w : Nat} {i : Instr} (h : decodeTableWord n w = some i) :
    decode (BitVec.ofNat 32 w) = .ok i := by
  unfold decodeTableWord at h
  split at h
  · cases hd : decode (BitVec.ofNat 32 w) with
    | ok j => simpa [hd, Except.toOption] using h
    | error e => simp [hd, Except.toOption] at h
  · cases h

/-- Settles O23: `withFetchWord` is an idle block with that write next. -/
theorem stepRunsDecodedCommand : Obligations.StepRunsDecodedCommand := by
  refine ⟨fun s w i rest he hs hd => step_command he hs hd, fun s w i hw hd => ?_⟩
  have hs : (s.withFetchWord 32 w).schedule = .host (.write 0x000#14 4 (BitVec.ofNat 32 w)) :: s.schedule := by
    simp only [State.withFetchWord, Nat.mod_eq_of_lt hw]
    rfl
  exact step_command rfl hs (decode_of_decodeTableWord hd)

/-! ### STATUS and the interrupt -/

theorem getLsbD_bitAt (b : Bool) {k : Nat} (hk : k < 32) (j : Nat) :
    (bitAt b k).getLsbD j = (b && decide (j = k)) := by
  by_cases h : j = k
  · subst h; simp [bitAt, hk]
  · simp [bitAt, h]; omega

/-- The five bits of STATUS, and zero above (R164). -/
theorem getLsbD_statusWord (s : State) (k : Nat) :
    (statusWord s).getLsbD k = (s.busy && decide (k = 0) || s.done && decide (k = 1) || s.errCmd && decide (k = 2) ||
      s.errLen && decide (k = 3) || s.errBusy && decide (k = 4)) := by
  simp [statusWord, getLsbD_bitAt]

/-- `statusW1C` as R164 words it: a bit that is 1 in the data clears its STATUS bit, and the others stay. -/
theorem statusW1C_eq_ite (d : Word) (s : State) :
    statusW1C d s = { s with
      done := if d.getLsbD 1 = true then false else s.done
      errCmd := if d.getLsbD 2 = true then false else s.errCmd
      errLen := if d.getLsbD 3 = true then false else s.errLen
      errBusy := if d.getLsbD 4 = true then false else s.errBusy } := by
  have clear (b c : Bool) : (b && !c) = if c = true then false else b := by cases c <;> simp
  simp only [statusW1C, clear]

theorem writeGives_status (s : State) (d : Word) : WriteGives s (regOffset .status) d (statusW1C d s) :=
  writeGives_of fun _ => memWrite_regOffset .status d _

/-- Settles O32, by the bits of `statusWord` and the fields of `statusW1C`. -/
theorem statusReadAndW1C : Obligations.StatusReadAndW1C := by
  intro s d
  refine ⟨⟨statusWord s, readReturns_regOffset .status s, ?bits⟩, statusW1C_eq_ite d s ▸ writeGives_status s d⟩
  simp only [getLsbD_statusWord, ← State.busy_eq_true_iff]
  refine ⟨by simp, by simp, by simp, by simp, by simp, fun k hk => ?above⟩
  have hne : ∀ j < 5, k ≠ j := fun j hj => by omega
  simp [hne]

/-- Settles O41, by the definition of `irq` (R39). -/
theorem irqLevel : Obligations.IrqLevel := by
  intro s
  simp [irq, State.doneIE, State.errIE, or_assoc]

/-- Settles O45, element by element. -/
theorem resetValues : Obligations.ResetValues := by
  refine ⟨rfl, ⟨rfl, rfl, rfl, rfl, readReturns_regOffset .status State.reset⟩, rfl, ⟨rfl, rfl, rfl⟩, rfl, rfl,
    ⟨rfl, readReturns_regOffset .olen State.reset, fun i hi => ?_⟩, rfl, rfl, readReturns_regOffset .caps State.reset,
    fun i => rfl, rfl⟩
  exact readReturns_of fun _ => memRead_obufOffset hi _

end Sys2Proof.Machine
end

section
/-! The address map and the bus (R50 to R54): what an offset names, which accesses are supported, the window. -/

namespace Sys2Proof.Machine

theorem supported_eq_false_iff {off : Offset} {size : Nat} :
    supported off size = false ↔ size ≠ 4 ∨ off.extractLsb' 0 2 ≠ 0b00#2 := by
  simp [supported, Config.accessBytes, imp_iff_not_or]

theorem memRead_unsupported {off : Offset} {size : Nat} (h : supported off size = false) (s : State) :
    memRead off size s = .error (.unsupportedAccess off size) := by
  simp [memRead, h]

theorem memWrite_unsupported {off : Offset} {size : Nat} (h : supported off size = false) (d : Word) (s : State) :
    memWrite off size d s = .fault (.unsupportedAccess off size) := by
  simp [memWrite, h]

/-- Settles O29: a host access is decided by `supported` before its offset or the state is looked at. -/
theorem unsupportedAccessFaults : Obligations.UnsupportedAccessFaults := by
  intro s off size d rest h
  have hns := supported_eq_false_iff.mpr h
  constructor
  · rw [step_of_schedule_host rfl]
    exact hostMove_read_error (memRead_unsupported hns _)
  · rw [step_of_schedule_host rfl]
    exact memWrite_unsupported hns d _

/-- The register map has no gaps: its registers stand at 0, 4, 8, … in its order (R23). -/
theorem regOffset_regMap_toNat : ∀ k : Fin regMap.length, (regOffset regMap[k]).toNat = 4 * k := by decide

theorem exists_regOffset_eq {off : Offset} (hal : off.toNat % 4 = 0) (h : off.toNat < 0x30) :
    ∃ r, regOffset r = off := by
  have hlen : regMap.length = 12 := rfl
  have hk := regOffset_regMap_toNat ⟨off.toNat / 4, by omega⟩
  exact ⟨_, BitVec.eq_of_toNat_eq (hk.trans (by dsimp only; omega))⟩

/-- Settles O38, range by range. -/
theorem addressMap : Obligations.AddressMap := by
  intro off hal
  refine ⟨fun h => ?register, fun h1 h2 => region_reserved h1 h2, fun h1 h2 => ?ibuf, fun h1 => ?obuf⟩
  case register =>
    obtain ⟨r, rfl⟩ := exists_regOffset_eq hal h
    exact ⟨r, region_regOffset r, rfl⟩
  case ibuf => exact ⟨_, by omega, region_ibuf h1 h2, by omega⟩
  case obuf =>
    have hlt := off.isLt
    exact ⟨_, by omega, region_obuf h1, by omega⟩

/-- Settles O39, for whatever multiple of the window size BLOCK_BASE is. -/
theorem busWindow : Obligations.BusWindow := by
  refine ⟨blockBase_aligned, busSelect_inside, fun addr size d h => ?outside⟩
  have hsel := busSelect_outside h
  exact ⟨busRead_none size hsel, busWrite_none size d hsel⟩

end Sys2Proof.Machine
end

section
/-! Reserved offsets and unused bits read as zero and ignore writes (R61). -/

namespace Sys2Proof.Machine

theorem memRead_reserved {off : Offset} (hal : off.toNat % 4 = 0) (hr : region off = .reserved) (s : State) :
    memRead off 4 s = .ok 0x00000000#32 := by
  simp [memRead, supported_four hal, hr]

theorem memWrite_reserved {off : Offset} (hal : off.toNat % 4 = 0) (hr : region off = .reserved) (d : Word)
    (s : State) : memWrite off 4 d s = .next s := by
  simp [memWrite, supported_four hal, hr]

theorem getLsbD_setWidth_of_ge {w n k : Nat} (x : BitVec w) (h : w ≤ k) : (x.setWidth n).getLsbD k = false := by
  simp [BitVec.getLsbD_of_ge x k h]

theorem getLsbD_ofNat_of_lt {w n k m : Nat} (h : n < 2 ^ m) (hk : m ≤ k) : (BitVec.ofNat w n).getLsbD k = false := by
  have hbit : n.testBit k = false := Nat.testBit_lt_two_pow (h.trans_le (Nat.pow_le_pow_right (by decide) hk))
  simp [BitVec.getLsbD_ofNat, hbit]

/-- A register reads 0 above its used bits; for OLEN that takes the bound of R37. -/
theorem getLsbD_readReg_of_ge {r : Reg} {s : State} {k : Nat} (hout : s.out.length ≤ 1033) (hk : regBits r ≤ k) :
    (readReg r s).getLsbD k = false := by
  cases r with
  | cmd => exact getLsbD_ofNat_of_lt (m := 32) (by decide) hk
  | status =>
    have hne : ∀ j < 5, k ≠ j := fun j hj => (hj.trans_le hk).ne'
    simp [readReg, getLsbD_statusWord, hne]
  | irqEn => exact getLsbD_setWidth_of_ge s.irqEn hk
  | dest => exact getLsbD_setWidth_of_ge s.dest hk
  | src => exact getLsbD_setWidth_of_ge s.src hk
  | options => exact getLsbD_setWidth_of_ge s.options hk
  | code => exact getLsbD_setWidth_of_ge s.code hk
  | ilen => exact getLsbD_setWidth_of_ge s.ilen hk
  | olen => exact getLsbD_ofNat_of_lt (m := 16) (by omega) hk
  | crcByte => exact getLsbD_setWidth_of_ge s.crcByte hk
  | crc32 => exact BitVec.getLsbD_of_ge s.crc32 k hk
  | caps => exact getLsbD_ofNat_of_lt (m := 16) (by decide) hk

theorem setWidth_eq_of_getLsbD_eq {w n : Nat} {x y : BitVec w} (h : ∀ k < n, x.getLsbD k = y.getLsbD k) :
    x.setWidth n = y.setWidth n :=
  BitVec.eq_of_getLsbD_eq fun k hk => by simp [hk, h k hk]

theorem statusW1C_congr {d d' : Word} (h : ∀ k < 5, d.getLsbD k = d'.getLsbD k) (s : State) :
    statusW1C d s = statusW1C d' s := by
  simp only [statusW1C, h 1 (by decide), h 2 (by decide), h 3 (by decide), h 4 (by decide)]

/-- What a write does to a register depends only on the used bits of the data. -/
theorem writeReg_congr {r : Reg} {d d' : Word} (h : ∀ k < regBits r, d.getLsbD k = d'.getLsbD k) (s : State) :
    writeReg r d s = writeReg r d' s := by
  have hw : d.setWidth (regBits r) = d'.setWidth (regBits r) := setWidth_eq_of_getLsbD_eq h
  cases r with
  | cmd => exact congrArg (cmdWrite · s) (BitVec.eq_of_getLsbD_eq h)
  | status => exact congrArg Host.Outcome.next (statusW1C_congr h s)
  | irqEn | dest | src | options | code | ilen =>
    simp only [regBits] at hw
    simp only [writeReg, hw]
  | olen | crcByte | crc32 | caps => rfl

/-- Settles O35: reserved offsets by their region, registers by the bits `readReg` gives and `writeReg` takes. -/
theorem reservedReadsZeroWritesIgnored : Obligations.ReservedReadsZeroWritesIgnored := by
  intro s hout
  refine ⟨fun off d hal h1 h2 => ?reserved, fun r k v hk hv => ?readBits, fun r d d' hd => ?writeBits⟩
  case reserved =>
    have hr : region off = .reserved := region_reserved h1 (by omega)
    exact ⟨readReturns_of fun _ => memRead_reserved hal hr _, writeGives_of fun _ => memWrite_reserved hal hr d _⟩
  case readBits =>
    obtain rfl : readReg r s = v := Except.ok.inj ((memRead_regOffset r s).symm.trans hv)
    exact getLsbD_readReg_of_ge hout hk
  case writeBits =>
    rw [memWrite_regOffset, memWrite_regOffset]
    exact writeReg_congr hd s

end Sys2Proof.Machine
end

section
/-! A repeated write (R56): every write but a CMD write is idempotent. -/

namespace Sys2Proof.Machine

/-- A store that leaves ENG alone and is idempotent stays so behind the busy gate: what the gate does instead,
setting ERR_BUSY, is idempotent too. -/
theorem gatedWrite_gatedWrite {store : State → State} {s : State} (heng : (store s).eng = s.eng)
    (hstore : store (store s) = store s) : gatedWrite store (gatedWrite store s) = gatedWrite store s := by
  cases he : s.eng with
  | idle => rw [gatedWrite_idle store he, gatedWrite_idle store (heng.trans he), hstore]
  | busy op =>
    rw [gatedWrite_busy store he, gatedWrite_busy store (s := s.setErrBusy) he]
    rfl

theorem statusW1C_statusW1C (d : Word) (s : State) : statusW1C d (statusW1C d s) = statusW1C d s := by
  simp [statusW1C]

theorem writeReg_idempotent {r : Reg} {d : Word} {s t : State} (hr : r ≠ .cmd) (h : writeReg r d s = .next t) :
    writeReg r d t = .next t := by
  cases r with
  | cmd => exact absurd rfl hr
  | status => cases h; exact congrArg Host.Outcome.next (statusW1C_statusW1C d s)
  | dest | src | options | code | ilen =>
    cases h
    exact congrArg Host.Outcome.next (gatedWrite_gatedWrite rfl rfl)
  | irqEn | olen | crcByte | crc32 | caps => cases h; rfl

theorem ibufWrite_ibufWrite (i : Nat) (d : Word) (s : State) :
    ibufWrite i d (ibufWrite i d s) = ibufWrite i d s :=
  gatedWrite_gatedWrite rfl (by simp only [Memory.write_write])

theorem memWrite_idempotent {off : Offset} {d : Word} {s t : State} (hoff : off ≠ regOffset .cmd)
    (h : memWrite off 4 d s = .next t) : memWrite off 4 d t = .next t := by
  have hsup : supported off 4 = true := supported_four (memWrite_kind h).1
  simp only [memWrite, hsup, if_true] at h ⊢
  cases hr : region off with
  | reg r =>
    simp only [hr] at h ⊢
    exact writeReg_idempotent (fun hc => hoff (hc ▸ region_eq_reg hr)) h
  | reserved => rfl
  | obuf i => rfl
  | ibuf i =>
    simp only [hr] at h ⊢
    cases h
    exact congrArg Host.Outcome.next (ibufWrite_ibufWrite i d s)

theorem cmdWrite_busy {s : State} {op : Instr} (he : s.eng = .busy op) (w : Word) :
    cmdWrite w s = .next s.setErrBusy := by
  simp only [cmdWrite, he]

/-- The CMD write of a command in an idle block, within capacity (R140). -/
theorem cmdWrite_encode_idle {s : State} (i : Instr) (he : s.eng = .idle) (hl : s.ilen.toNat ≤ 1024) :
    cmdWrite (encode i) s = .next { s with done := false, eng := .busy i } := by
  rw [cmdWrite_idle_of_decode he (decode_ok_iff.mpr rfl), exec_idle i he, accept_eq, if_neg (by omega)]

/-- Settles O40: after a CMD write has started its command, the same write finds the block busy. -/
theorem writesIdempotentExceptCmd : Obligations.WritesIdempotentExceptCmd := by
  refine ⟨fun s t off d hoff h => memWrite_idempotent hoff h, fun s i he hl => ?command⟩
  have hbusy : ({ s with done := false, eng := .busy i } : State).eng = .busy i := rfl
  exact ⟨_, (memWrite_regOffset .cmd _ s).trans (cmdWrite_encode_idle i he hl),
    (memWrite_regOffset .cmd _ _).trans (cmdWrite_busy hbusy (encode i)), hbusy⟩

end Sys2Proof.Machine
end

section
/-! The command words and the frame formats (R81 to R91): the decoder, the code bytes, a frame's bytes and length, and
what a frame determines. -/

namespace Sys2Proof.Machine

/-! ### The command words -/

/-- Settles O1, command by command, by the decoder's law `decode_ok_iff`. -/
theorem commandWordsDecode : Obligations.CommandWordsDecode := by
  intro w i
  rw [decode_ok_iff]
  cases i <;> simp [encode]

theorem roundTrip (i : Instr) : Laws.RoundTrip.Statement i := by
  cases i with
  | build => exact Laws.RoundTrip.build
  | checksum => exact Laws.RoundTrip.checksum
  | organize => exact Laws.RoundTrip.organize

/-- Settles O2, by the round trip of each command and the decoder's law. -/
theorem decodeEncodeAgree : Obligations.DecodeEncodeAgree := by
  refine ⟨fun i => ?_, fun w i h => (decode_ok_iff.mp h).symm⟩
  obtain ⟨hwf, hdecode, -⟩ := roundTrip i
  exact ⟨hwf, hdecode⟩

theorem cmdWrite_idle_of_decode_error {s : State} {w : Word} {e : DecodeReject} (he : s.eng = .idle)
    (hd : decode w = .error e) : cmdWrite w s = .next s.setErrCmd := by
  simp only [cmdWrite, he, hd]

/-- Settles O3: a CMD write meets the busy gate before the decoder, and the decoder refuses the word. -/
theorem reservedWordsSetOneErrorBit : Obligations.ReservedWordsSetOneErrorBit := by
  intro s w h1 h2 h3
  have hd : decode w = .error (.reservedWord w) :=
    decode_error_iff.mpr ⟨rfl, fun i => by cases i <;> assumption⟩
  refine ⟨hd, fun he => writeGives_of fun rest => ?idle, fun op he => writeGives_of fun rest => ?busy⟩
  case idle =>
    exact (memWrite_regOffset .cmd w _).trans
      (cmdWrite_idle_of_decode_error (s := s.carried rest ⟨.W, 0x000#14, w⟩) he hd)
  case busy =>
    exact (memWrite_regOffset .cmd w _).trans (cmdWrite_busy (s := s.carried rest ⟨.W, 0x000#14, w⟩) he w)

/-! ### The code bytes -/

theorem codeHp_eq_zero_iff {c : Half} : codeHp c = 0 ↔ codeHi c = 0x00#8 := by simp [codeHp]

theorem codeHp_eq_one_iff {c : Half} : codeHp c = 1 ↔ codeHi c ≠ 0x00#8 := by simp [codeHp]

theorem codeHp_eq_ite (c : Half) : codeHp c = if c.extractLsb' 8 8 ≠ 0x00#8 then 1 else 0 := by
  rw [← codeHi_eq]
  rfl

theorem codeHi_ne_zero_iff {c : Half} : codeHi c ≠ 0x00#8 ↔ 0x0100 ≤ c.toNat := by
  have hlt := c.isLt
  have hnat : (codeHi c).toNat = c.toNat / 256 := by
    rw [codeHi_eq, BitVec.extractLsb'_toNat, Nat.shiftRight_eq_div_pow]
    omega
  rw [ne_eq, ← BitVec.toNat_inj, hnat, BitVec.toNat_ofNat]
  omega

/-- Settles O8: the masks of SplitCode as extracts, and `hp` by the size of the code. -/
theorem splitCodeFields : Obligations.SplitCodeFields := by
  intro code
  have hp : codeHp code = if 0x0100 ≤ code.toNat then 1 else 0 := by
    simp only [codeHp, codeHi_ne_zero_iff]
  rw [splitCode, codeLo_eq, codeHi_eq, hp]

@[simp] theorem codeHi_append (hi lo : Byte) : codeHi (hi ++ lo : Half) = hi := by
  rw [codeHi_eq, BitVec.extractLsb'_append_eq_left]

@[simp] theorem codeLo_append (hi lo : Byte) : codeLo (hi ++ lo : Half) = lo := by
  rw [codeLo_eq, BitVec.extractLsb'_append_eq_right]

theorem codeHi_append_codeLo (c : Half) : (codeHi c ++ codeLo c : Half) = c := by
  rw [codeHi_eq, codeLo_eq]
  exact BitVec.extractLsb'_append_extractLsb'_eq_extractLsb' (x := c) rfl |>.trans BitVec.extractLsb'_eq_self

theorem code_ext {c c' : Half} (hhi : codeHi c = codeHi c') (hlo : codeLo c = codeLo c') : c = c' := by
  rw [← codeHi_append_codeLo c, hhi, hlo, codeHi_append_codeLo]

/-! ### The frame -/

section Formats

variable (d s o : Byte) (p : List Byte)

/-- The short-code format (R85). -/
theorem frameBody_short {c : Half} (h : codeHi c = 0x00#8) :
    frameBody d s o c p = [0x48#8, 0x5A#8, BitVec.ofNat 8 (4 + p.length), d, s, o, codeLo c] ++ p := by
  simp [frameBody_eq, codeHp_eq_zero_iff.mpr h, Config.sof1, Config.sof2]

/-- The long-code format (R86). -/
theorem frameBody_long {c : Half} (h : codeHi c ≠ 0x00#8) :
    frameBody d s o c p = [0x48#8, 0x5A#8, BitVec.ofNat 8 (5 + p.length), d, s, o, codeLo c, codeHi c] ++ p := by
  simp [frameBody_eq, codeHp_eq_one_iff.mpr h, Config.sof1, Config.sof2]

/-- The length byte (R88). -/
theorem getElem?_two_buildFrame (c : Half) :
    (buildFrame d s o c p).1[2]? = some (BitVec.ofNat 8 (4 + codeHp c + p.length)) := by
  simp [frameBody_eq]

end Formats

/-- A frame is its body with the checksum after it (R89), so a frame and its accumulator are a matter of the body. -/
theorem buildFrame_eq_of_frameBody {d s o d' s' o' : Byte} {c c' : Half} {p p' : List Byte}
    (h : frameBody d s o c p = frameBody d' s' o' c' p') :
    buildFrame d s o c p = buildFrame d' s' o' c' p' := by
  simp only [buildFrame, h]

/-- The checksum is one byte, so a frame determines the body before it. -/
theorem frameBody_eq_of_buildFrame {d s o d' s' o' : Byte} {c c' : Half} {p p' : List Byte}
    (h : (buildFrame d s o c p).1 = (buildFrame d' s' o' c' p').1) :
    frameBody d s o c p = frameBody d' s' o' c' p' := by
  rw [buildFrame_fst, buildFrame_fst] at h
  exact List.append_inj_left' h (by simp only [List.length_singleton])

/-- Settles O4, format by format. -/
theorem frameBytes : Obligations.FrameBytes := by
  intro d s o c p lo hi short long body
  have hbody : frameBody d s o c p = body := by
    by_cases h : codeHi c = 0x00#8
    · have hb : body = short := if_pos ((codeHi_eq c).symm.trans h)
      rw [frameBody_short d s o p h, hb, codeLo_eq]
    · have hb : body = long := if_neg fun hz => h ((codeHi_eq c).trans hz)
      rw [frameBody_long d s o p h, hb, codeLo_eq, codeHi_eq]
  rw [buildFrame, hbody, BitVec.setWidth_eq_extractLsb' (by decide)]

/-- Settles O5, by the length of a frame: `hp` is at most 1, and the checksum is not counted by the length byte. -/
theorem frameLengthBounds : Obligations.FrameLengthBounds := by
  intro d s o c p hp f
  have hlen : f.length = 8 + codeHp c + p.length := length_buildFrame d s o c p
  have hhp := codeHp_le c
  refine ⟨codeHp_eq_ite c ▸ hlen, by omega, by omega, ?_⟩
  have hbyte : f.length - 4 = 4 + codeHp c + p.length := by omega
  rw [hbyte]
  exact getElem?_two_buildFrame d s o p c

/-- Settles O6: the high code byte and a first payload byte stand at the same place, and the length byte counts both
alike. -/
theorem frameCodeWidthAmbiguity : Obligations.FrameCodeWidthAmbiguity := by
  refine ⟨fun d s o lo hi p hhi => buildFrame_eq_of_frameBody ?_, by decide +kernel⟩
  rw [frameBody_long d s o p (by rwa [codeHi_append]), frameBody_short d s o (hi :: p) (codeHi_append _ lo)]
  have hlen : 4 + (hi :: p).length = 5 + p.length := by rw [List.length_cons]; omega
  rw [hlen, codeLo_append, codeLo_append, codeHi_append]
  rfl

/-- Settles O7: the frame determines its body, and under one code width the body's fields stand at fixed places. -/
theorem frameDeterminesFields : Obligations.FrameDeterminesFields := by
  intro d d' s s' o o' c c' p p' hhp hframe
  replace hhp : codeHp c = codeHp c' := hhp
  have hbody := frameBody_eq_of_buildFrame hframe
  have hiff : codeHi c = 0x00#8 ↔ codeHi c' = 0x00#8 := by
    rw [← codeHp_eq_zero_iff, hhp, codeHp_eq_zero_iff]
  by_cases hc : codeHi c = 0x00#8
  · rw [frameBody_short _ _ _ _ hc, frameBody_short _ _ _ _ (hiff.mp hc)] at hbody
    simp only [List.cons_append, List.nil_append, List.cons.injEq, true_and] at hbody
    obtain ⟨-, hd, hs, ho, hlo, hp⟩ := hbody
    exact ⟨hd, hs, ho, code_ext (hc.trans (hiff.mp hc).symm) hlo, hp⟩
  · rw [frameBody_long _ _ _ _ hc, frameBody_long _ _ _ _ (mt hiff.mpr hc)] at hbody
    simp only [List.cons_append, List.nil_append, List.cons.injEq, true_and] at hbody
    obtain ⟨-, hd, hs, ho, hlo, hhi, hp⟩ := hbody
    exact ⟨hd, hs, ho, code_ext hhi hlo, hp⟩

end Sys2Proof.Machine
end

section
/-! The expansions of LOADIN and WAIT (R94): the runs of their moves. -/

namespace Sys2Proof.Machine

theorem run_succ_of_step {n : Nat} {s t : State} (h : step s = .next t) : run (n + 1) s = run n t := by
  rw [run_succ, h]

theorem run_one_of_step {s t : State} (h : step s = .next t) : run 1 s = .next t := run_succ_of_step h

/-- A write scheduled next has the effect `WriteGives` says. -/
theorem WriteGives.step_eq {s t : State} {off : Offset} {d : Word} {rest : List Move} (h : WriteGives s off d t)
    (hs : s.schedule = .host (.write off 4 d) :: rest) : step s = .next (t.carried rest ⟨.W, off, d⟩) := by
  simpa only [← hs] using h rest

theorem ReadReturns.step_eq {s : State} {off : Offset} {v : Word} {rest : List Move} (h : ReadReturns s off v)
    (hs : s.schedule = .host (.read off 4) :: rest) : step s = .next (s.carried rest ⟨.R, off, v⟩) := by
  simpa only [← hs] using h rest

/-! ### LOADIN -/

/-- The cells after the low bytes of `values` have been written from cell `i` on, as the writes of LOADIN leave them
(`run_loadMoves`). -/
def Memory.load (m : Memory) (i : Nat) : List Word → Memory
  | [] => m
  | v :: rest => Memory.load (Memory.write m i (v.setWidth 8)) (i + 1) rest

theorem Memory.read_load_of_lt {m : Memory} {i k : Nat} {values : List Word} (h : k < i) :
    Memory.read (Memory.load m i values) k = Memory.read m k := by
  induction values generalizing m i with
  | nil => rfl
  | cons v values ih => exact (ih (by omega)).trans (Memory.read_write_ne m _ (by omega))

theorem Memory.read_load_of_ge {m : Memory} {i k : Nat} {values : List Word} (h : i + values.length ≤ k) :
    Memory.read (Memory.load m i values) k = Memory.read m k := by
  induction values generalizing m i with
  | nil => rfl
  | cons v values ih =>
    rw [List.length_cons] at h
    exact (ih (by omega)).trans (Memory.read_write_ne m _ (by omega))

theorem Memory.read_load {m : Memory} {i k : Nat} {values : List Word} {v : Word} (h : values[k]? = some v) :
    Memory.read (Memory.load m i values) (i + k) = some (v.setWidth 8) := by
  induction values generalizing m i k with
  | nil => simp at h
  | cons w values ih =>
    cases k with
    | zero =>
      obtain rfl : w = v := by simpa using h
      exact (Memory.read_load_of_lt (Nat.lt_succ_self i)).trans (Memory.read_write_same m i _)
    | succ k =>
      rw [show i + (k + 1) = i + 1 + k by omega]
      exact ih (by simpa using h)

/-- The cell writes of LOADIN in an idle block, one step each. -/
theorem run_loadMoves {s : State} {i : Nat} {values : List Word} {rest : List Move} (he : s.eng = .idle)
    (hi : i + values.length ≤ 1024) (hs : s.schedule = loadMoves i values ++ rest) :
    ∃ tr, run values.length s =
      .next { s with ibuf := Memory.load s.ibuf i values, schedule := rest, trace := tr } := by
  induction values generalizing s i with
  | nil => exact ⟨s.trace, by rw [← show s.schedule = rest from hs]; rfl⟩
  | cons v values ih =>
    rw [List.length_cons] at hi
    have hstep := (writeGives_ibufOffset_idle he (i := i) (by omega) v).step_eq hs
    rw [List.length_cons, run_succ_of_step hstep]
    exact ih he (by omega) rfl

/-- A write to ILEN stores the low half of the data in an idle block (R168). -/
theorem writeGives_ilen_idle {s : State} (he : s.eng = .idle) (d : Word) :
    WriteGives s (regOffset .ilen) d { s with ilen := d.setWidth 16 } :=
  writeGives_of fun rest => (memWrite_regOffset .ilen d _).trans
    (congrArg _ (gatedWrite_idle (s := s.carried rest ⟨.W, regOffset .ilen, d⟩) _ he))

/-- Settles O50: the cell writes, then the write of ILEN. -/
theorem loadinLoadsCells : Obligations.LoadinLoadsCells := by
  intro s polls values rest he hlen hs
  rw [lineMoves, List.append_assoc] at hs
  obtain ⟨tr, hrun⟩ := run_loadMoves he (by omega) hs
  have hilen := (writeGives_ilen_idle (s := { s with ibuf := Memory.load s.ibuf 0 values, schedule := _, trace := tr })
    he (BitVec.ofNat 32 values.length)).step_eq (rest := rest) rfl
  rw [BitVec.setWidth_ofNat_of_le (by decide)] at hilen
  refine ⟨_, (run_add hrun).trans (run_one_of_step hilen), fun k v hv => ?loaded, fun k hk => ?kept, rfl⟩
  case loaded =>
    rw [← BitVec.setWidth_eq_extractLsb' (by decide), ← Nat.zero_add k]
    exact Memory.read_load hv
  case kept => exact Memory.read_load_of_ge (by omega)

/-! ### WAIT -/

/-- `s` after `n` reads of its STATUS, with `rest` still scheduled: `run_wait_polls` and `run_status_reads` reach it. -/
def State.polled (s : State) (n : Nat) (rest : List Move) : State :=
  { s with schedule := rest, trace := List.replicate n ⟨.R, 0x004#14, statusWord s⟩ ++ s.trace }

/-- One read and then `n` more are `n + 1` reads: a read does not change STATUS (R56). -/
theorem State.carried_polled (s : State) (n : Nat) (rest rest' : List Move) :
    (s.carried rest ⟨.R, 0x004#14, statusWord s⟩).polled n rest' = s.polled (n + 1) rest' := by
  simp only [State.polled, List.replicate_succ', List.append_assoc, List.singleton_append]
  rfl

/-- The early polls of a `WAIT`, one step each. -/
theorem run_wait_polls {s : State} {i : Instr} {n : Nat} {rest : List Move} (he : s.eng = .busy i)
    (hs : s.schedule = .wait n :: rest) : run n s = .next (s.polled n (.wait 0 :: rest)) := by
  induction n generalizing s with
  | zero => rw [← hs]; rfl
  | succ n ih =>
    rw [run_succ_of_step (step_of_schedule_wait_succ he hs), ← State.carried_polled]
    exact ih he rfl

/-- The same reads, written out as host accesses. -/
theorem run_status_reads {s : State} {n : Nat} {rest : List Move}
    (hs : s.schedule = List.replicate n (.host (.read 0x004#14 4)) ++ rest) : run n s = .next (s.polled n rest) := by
  induction n generalizing s with
  | zero => rw [← show s.schedule = rest from hs]; rfl
  | succ n ih =>
    rw [run_succ_of_step ((readReturns_regOffset .status s).step_eq hs), ← State.carried_polled]
    exact ih rfl

/-- A commit reads neither the schedule nor the trace, and keeps both. -/
theorem exec_polled {s v : State} {i : Instr} (he : s.eng = .busy i) (h : exec i s = .next v) (n : Nat)
    (rest : List Move) :
    exec i (s.polled n rest) = .next { v with schedule := rest, trace := (s.polled n rest).trace } := by
  obtain ⟨p, hp, rfl⟩ := exec_busy_next he h
  rw [exec_of_holds (s := s.polled n rest) he hp]
  cases i <;> rfl

theorem getLsbD_statusWord_zero (s : State) : (statusWord s).getLsbD 0 = s.busy := by
  rw [getLsbD_statusWord]
  simp

theorem State.busy_of_eng_busy {s : State} {i : Instr} (h : s.eng = .busy i) : s.busy = true := by
  simp only [State.busy, h]

theorem State.busy_of_eng_idle {s : State} (h : s.eng = .idle) : s.busy = false := by
  simp only [State.busy, h]

theorem run_add_two {n : Nat} {s a b c : State} (h : run n s = .next a) (hb : step a = .next b)
    (hc : step b = .next c) : run (n + 2) s = .next c :=
  (run_add h).trans ((run_succ_of_step hb).trans (run_one_of_step hc))

/-- After a reset STATUS reads 0 (R41). -/
theorem statusWord_resetBlock (s : State) : statusWord (resetBlock s) = 0x00000000#32 :=
  (by decide : statusWord State.reset = 0x00000000#32)

/-- Settles O51: `n` polls, the commit, and the read that finds the block idle, as a `WAIT` and written out. -/
theorem waitPollsUntilIdle : Obligations.WaitPollsUntilIdle := by
  refine ⟨fun s v i n rest he hs hexec => ?busy, fun s n rest he hs => ?idle, fun s n rest hs => ?reset⟩
  case busy =>
    have hv : v.eng = .idle := by
      obtain ⟨p, -, rfl⟩ := exec_busy_next he hexec
      rfl
    have hbusy (next : List Move) : (s.polled n next).eng = .busy i := he
    have hcommit := exec_polled he hexec n
    refine ⟨(getLsbD_statusWord_zero s).trans (State.busy_of_eng_busy he),
      (getLsbD_statusWord_zero v).trans (State.busy_of_eng_idle hv), ?asWait, ?writtenOut⟩
    case asWait =>
      have hlast := (step_of_schedule_wait_zero (hbusy _) rfl).trans (hcommit (.wait 0 :: rest))
      exact run_add_two (run_wait_polls he hs) hlast (step_of_schedule_wait_idle hv rfl)
    case writtenOut =>
      have hengine := (step_of_schedule_engine (s := s.polled n (.engine :: .host statusPoll :: rest)) rfl).trans
        ((engineMove_busy (hbusy (.host statusPoll :: rest))).trans (hcommit (.host statusPoll :: rest)))
      exact run_add_two (run_status_reads rfl) hengine ((readReturns_regOffset .status _).step_eq rfl)
  case idle =>
    exact ⟨(getLsbD_statusWord_zero s).trans (State.busy_of_eng_idle he),
      run_one_of_step (step_of_schedule_wait_idle he hs)⟩
  case reset =>
    have hreset : step s = .next (resetBlock { s with schedule := .wait n :: rest }) := by
      simp only [step, nextMove, hs]
    have hread := step_of_schedule_wait_idle (s := resetBlock { s with schedule := .wait n :: rest }) rfl rfl
    rw [statusWord_resetBlock] at hread
    exact (run_succ_of_step hreset).trans (run_one_of_step hread)

end Sys2Proof.Machine
end

section
/-! Organize by its groups and by its bytes (R114, R115, R124). -/

namespace Sys2Proof.Machine

/-- The first group of `s`, padded on the right with zeros to 4 bytes (R114). -/
def padGroup (s : List Byte) : List Byte := s.take 4 ++ List.replicate (4 - (s.take 4).length) 0x00#8

@[simp] theorem length_padGroup (s : List Byte) : (padGroup s).length = 4 := by
  simp [padGroup]

/-- Zeros after the end of `s` are what reading past its end gives. -/
theorem getD_append_zeros (s : List Byte) (k n : Nat) :
    (s ++ List.replicate k 0x00#8).getD n 0x00#8 = s.getD n 0x00#8 := by
  rcases Nat.lt_or_ge n s.length with h | h
  · exact List.getD_append _ _ _ _ h
  · rw [List.getD_append_right _ _ _ _ h, List.getD_eq_default _ _ h,
      List.getD_eq_getElem?_getD, List.getElem?_getD_replicate_default_eq]

theorem getElem?_padGroup (s : List Byte) {m : Nat} (h : m < 4) : (padGroup s)[m]? = some (s.getD m 0x00#8) := by
  have hm : m < (padGroup s).length := by rwa [length_padGroup]
  rw [List.getElem?_eq_getElem hm, ← List.getD_eq_getElem _ 0x00#8 hm, padGroup, getD_append_zeros,
    List.getD_eq_getElem?_getD, List.getElem?_take_of_lt h, ← List.getD_eq_getElem?_getD]

theorem organize_eq_padGroup {s : List Byte} (h : s ≠ []) :
    organize s = (padGroup s).reverse ++ organize (s.drop 4) := organize_group s h

theorem drop_four_organize (s : List Byte) : (organize s).drop 4 = organize (s.drop 4) := by
  by_cases h : s = []
  · rw [h]; rfl
  · rw [organize_eq_padGroup h]
    exact List.drop_left' (by simp)

theorem drop_organize (s : List Byte) (k : Nat) : (organize s).drop (4 * k) = organize (s.drop (4 * k)) := by
  induction k with
  | zero => rfl
  | succ k ih => rw [Nat.mul_succ, ← List.drop_drop, ih, drop_four_organize, List.drop_drop]

/-- Group `k` of the output is group `k` of the input, padded and reversed (R115). -/
theorem take_drop_organize {s : List Byte} {k : Nat} (h : 4 * k < s.length) :
    ((organize s).drop (4 * k)).take 4 = (padGroup (s.drop (4 * k))).reverse := by
  have hne : s.drop (4 * k) ≠ [] := by simpa using h
  rw [drop_organize, organize_eq_padGroup hne]
  exact List.take_left' (by simp)

/-- Byte `j` of the output (R115): the place of `j` in its group, counted from the group's other end. -/
theorem getElem?_organize {s : List Byte} {j : Nat} (h : j < (organize s).length) :
    (organize s)[j]? = some (s.getD (4 * (j / 4) + 3 - j % 4) 0x00#8) := by
  rw [length_organize] at h
  have hplace : j % 4 < 4 := Nat.mod_lt j (by decide)
  have hpad : j % 4 < (padGroup (s.drop (4 * (j / 4)))).length := by rwa [length_padGroup]
  calc (organize s)[j]?
      = (((organize s).drop (4 * (j / 4))).take 4)[j % 4]? := by
        rw [List.getElem?_take_of_lt hplace, List.getElem?_drop, Nat.div_add_mod]
    _ = (padGroup (s.drop (4 * (j / 4))))[3 - j % 4]? := by
        rw [take_drop_organize (by omega), List.getElem?_reverse hpad, length_padGroup]
    _ = some (s.getD (4 * (j / 4) + 3 - j % 4) 0x00#8) := by
        rw [getElem?_padGroup _ (by omega), List.getD_eq_getElem?_getD, List.getElem?_drop,
          ← List.getD_eq_getElem?_getD, Nat.add_sub_assoc (by omega)]

/-- Settles O9, by the length of Organize, its groups and its bytes. -/
theorem organizeIndexLaw : Obligations.OrganizeIndexLaw := fun s =>
  ⟨length_organize s, fun _ => take_drop_organize, fun _ => getElem?_organize⟩

/-- Zeros that open no new group change neither the length of the output nor any byte of it. -/
theorem organize_append_zeros {s : List Byte} {k : Nat} (h : s.length + k ≤ (s.length + 3) / 4 * 4) :
    organize (s ++ List.replicate k 0x00#8) = organize s := by
  have hlen : (organize (s ++ List.replicate k 0x00#8)).length = (organize s).length := by
    rw [length_organize, length_organize, List.length_append, List.length_replicate]
    omega
  refine List.ext_getElem? fun j => ?_
  by_cases hj : j < (organize s).length
  · rw [getElem?_organize (hlen ▸ hj), getElem?_organize hj, getD_append_zeros]
  · rw [List.getElem?_eq_none (by omega), List.getElem?_eq_none (by omega)]

/-- Zeros that open a new group make the output longer. -/
theorem length_organize_lt_append_zeros {s : List Byte} {k : Nat} (h : (s.length + 3) / 4 * 4 < s.length + k) :
    (organize s).length < (organize (s ++ List.replicate k 0x00#8)).length := by
  rw [length_organize, length_organize, List.length_append, List.length_replicate]
  omega

/-- Settles O10: the checksum sees its input through Organize only, and a new group shows in the length. -/
theorem trailingZerosInFinalGroup : Obligations.TrailingZerosInFinalGroup := by
  refine fun s k => ⟨fun _ hk => ?inside, fun hk heq => ?newGroup⟩
  case inside =>
    have hsame := organize_append_zeros hk
    exact ⟨hsame, by rw [checksumOf, hsame, checksumOf]⟩
  case newGroup => exact absurd (congrArg List.length heq) (length_organize_lt_append_zeros hk).ne'

end Sys2Proof.Machine
end

section
/-! The Checksum Engine (R116 to R119, R122): one bit, one byte, one word. -/

namespace Sys2Proof.Machine

/-! ### One bit -/

/-- The polynomial, or nothing, by the top bit (R116). -/
theorem crcBitStep_eq_xor (acc : Word) :
    crcBitStep acc = (acc <<< 1) ^^^ (if acc.getLsbD 31 then Config.crcPoly else 0x00000000#32) := by
  unfold crcBitStep
  split <;> simp

theorem getLsbD_crcBitStep (acc : Word) {k : Nat} (hk : k < 32) :
    (crcBitStep acc).getLsbD k =
      ((k != 0 && acc.getLsbD (k - 1)) ^^ (acc.getLsbD 31 && Config.crcPoly.getLsbD k)) := by
  have hshift : (acc <<< 1).getLsbD k = (k != 0 && acc.getLsbD (k - 1)) := by
    cases k with
    | zero => simp
    | succ k => rw [BitVec.getLsbD_shiftLeft]; simp [hk]
  rw [crcBitStep_eq_xor, BitVec.getLsbD_xor, hshift]
  cases acc.getLsbD 31 <;> simp

/-- Settles O11, by the bits of the shifted accumulator and of the polynomial. -/
theorem crcBitStepBits : Obligations.CrcBitStepBits :=
  ⟨fun acc _ hk => getLsbD_crcBitStep acc hk, by decide⟩

/-- A bit step is linear: the polynomial is XORed in once for each top bit. -/
theorem crcBitStep_xor (x y : Word) : crcBitStep (x ^^^ y) = crcBitStep x ^^^ crcBitStep y := by
  have hpoly : (if (x ^^^ y).getLsbD 31 then Config.crcPoly else 0x00000000#32) =
      (if x.getLsbD 31 then Config.crcPoly else 0x00000000#32) ^^^
        (if y.getLsbD 31 then Config.crcPoly else 0x00000000#32) := by
    rw [BitVec.getLsbD_xor]
    cases x.getLsbD 31 <;> cases y.getLsbD 31 <;> simp
  rw [crcBitStep_eq_xor, crcBitStep_eq_xor, crcBitStep_eq_xor, hpoly, BitVec.shiftLeft_xor_distrib]
  ac_rfl

theorem crcBitStep_iterate_xor (n : Nat) (x y : Word) :
    crcBitStep^[n] (x ^^^ y) = crcBitStep^[n] x ^^^ crcBitStep^[n] y := by
  induction n generalizing x y with
  | zero => rfl
  | succ n ih => simp only [Function.iterate_succ_apply, crcBitStep_xor, ih]

/-- Bits below the top `n` only move up in `n` bit steps. -/
theorem crcBitStep_iterate_of_top_zero {n : Nat} {x : Word} (h : ∀ k, 32 ≤ k + n → x.getLsbD k = false) :
    crcBitStep^[n] x = x <<< n := by
  induction n generalizing x with
  | zero => simp
  | succ n ih =>
    have htop : crcBitStep x = x <<< 1 := by
      rw [crcBitStep, h 31 (by omega)]
      rfl
    have hnext : ∀ k, 32 ≤ k + n → (x <<< 1).getLsbD k = false := fun k hk => by
      simp [BitVec.getLsbD_shiftLeft, h (k - 1) (by omega)]
    rw [Function.iterate_succ_apply, htop, ih hnext, ← BitVec.shiftLeft_add, Nat.add_comm]

/-! ### One byte -/

theorem crc32Acc_concat (r : List Byte) (b : Byte) : crc32Acc (r ++ [b]) = crcByteStep (crc32Acc r) b :=
  crc32Acc_append r [b]

theorem checksumOf_eq_extractLsb' (s : List Byte) : checksumOf s = (crc32Acc (organize s)).extractLsb' 0 8 :=
  BitVec.setWidth_eq_extractLsb' (by decide)

/-- Settles O12, by the fold over the buffer. -/
theorem crcAccumulatorFold : Obligations.CrcAccumulatorFold :=
  ⟨crc32Acc_nil, fun r b => (crc32Acc_concat r b).trans rfl, checksumOf_eq_extractLsb'⟩

/-! ### One word -/

/-- A group with last byte zero loads a word with top byte zero. -/
theorem getLsbD_groupWord_zero_of_ge (a b c : Byte) {k : Nat} (hk : 24 ≤ k) :
    (groupWord a b c 0x00#8).getLsbD k = false := by
  have ha : a.getLsbD k = false := BitVec.getLsbD_of_ge _ _ (by omega)
  have hb : b.getLsbD (k - 8) = false := BitVec.getLsbD_of_ge _ _ (by omega)
  have hc : c.getLsbD (k - 16) = false := BitVec.getLsbD_of_ge _ _ (by omega)
  simp [groupWord, BitVec.getLsbD_shiftLeft, ha, hb, hc]

theorem groupWord_eq_xor (a b c d : Byte) :
    groupWord a b c d = (d.setWidth 32 <<< 24) ^^^ groupWord a b c 0x00#8 := by
  have hor : groupWord a b c d = groupWord a b c 0x00#8 ||| d.setWidth 32 <<< 24 := by simp [groupWord]
  refine BitVec.eq_of_getLsbD_eq fun k hk => ?_
  rw [hor, BitVec.getLsbD_or, BitVec.getLsbD_xor]
  rcases Nat.lt_or_ge k 24 with h | h
  · simp [BitVec.getLsbD_shiftLeft, h]
  · simp [getLsbD_groupWord_zero_of_ge a b c h]

theorem groupWord_zero_shiftLeft (a b c : Byte) : groupWord a b c 0x00#8 <<< 8 = groupWord 0x00#8 a b c := by
  simp [groupWord, BitVec.shiftLeft_or_distrib, ← BitVec.shiftLeft_add]

/-- Eight bit steps of a word are the byte step of its top byte, with the other bytes moved up by one. -/
theorem crcBitStep_iterate_eight_groupWord (acc : Word) (a b c d : Byte) :
    crcBitStep^[8] (acc ^^^ groupWord a b c d) = crcByteStep acc d ^^^ groupWord 0x00#8 a b c := by
  have hlow : crcBitStep^[8] (groupWord a b c 0x00#8) = groupWord 0x00#8 a b c := by
    rw [crcBitStep_iterate_of_top_zero fun k hk => getLsbD_groupWord_zero_of_ge a b c (by omega),
      groupWord_zero_shiftLeft]
  rw [groupWord_eq_xor, ← BitVec.xor_assoc, crcBitStep_iterate_xor, hlow]
  rfl

/-- One word step is the four byte steps of its group, last byte first (R122). -/
theorem crcWordStep_groupWord (acc : Word) (a b c d : Byte) :
    crcWordStep acc (groupWord a b c d) = [d, c, b, a].foldl crcByteStep acc := by
  have hsteps (x : Word) : crcBitStep^[32] x =
      crcBitStep^[8] (crcBitStep^[8] (crcBitStep^[8] (crcBitStep^[8] x))) := by
    simp only [← Function.iterate_add_apply]
  have hzero : groupWord 0x00#8 0x00#8 0x00#8 0x00#8 = 0x00000000#32 := by decide
  simp only [crcWordStep, hsteps, crcBitStep_iterate_eight_groupWord, hzero, BitVec.xor_zero, List.foldl_cons,
    List.foldl_nil]

theorem foldl_crcWordStep_groupWords (s : List Byte) (acc : Word) :
    (groupWords s).foldl crcWordStep acc = (organize s).foldl crcByteStep acc := by
  induction s using organize.induct generalizing acc with
  | case1 => rfl
  | case2 => rw [groupWords, organize, List.foldl_cons, crcWordStep_groupWord, List.foldl_nil]
  | case3 => rw [groupWords, organize, List.foldl_cons, crcWordStep_groupWord, List.foldl_nil]
  | case4 => rw [groupWords, organize, List.foldl_cons, crcWordStep_groupWord, List.foldl_nil]
  | case5 a b c d rest ih =>
    rw [groupWords, organize, List.foldl_cons, ih, crcWordStep_groupWord]
    simp only [List.foldl_cons, List.foldl_nil]

/-- The word-wide engine over the words of the input is the byte engine over the reordered bytes (R122). -/
theorem crc32Words_groupWords (s : List Byte) : crc32Words (groupWords s) = crc32Acc (organize s) :=
  foldl_crcWordStep_groupWords s Config.crcInit

/-- The word `W_k` of R122: the load of group `k`, with zeros past the end of the input. -/
def groupWordAt (s : List Byte) (k : Nat) : Word :=
  groupWord (s.getD (4 * k) 0x00#8) (s.getD (4 * k + 1) 0x00#8) (s.getD (4 * k + 2) 0x00#8) (s.getD (4 * k + 3) 0x00#8)

theorem groupWordAt_append_zeros (s : List Byte) (n k : Nat) :
    groupWordAt (s ++ List.replicate n 0x00#8) k = groupWordAt s k := by
  simp only [groupWordAt, getD_append_zeros]

theorem groupWords_eq_map_range (s : List Byte) :
    groupWords s = (List.range ((s.length + 3) / 4)).map (groupWordAt s) := by
  induction s using groupWords.induct with
  | case1 => rfl
  | case2 => simp [groupWords, groupWordAt]
  | case3 => simp [groupWords, groupWordAt]
  | case4 => simp [groupWords, groupWordAt]
  | case5 a b c d rest ih =>
    have hgroups : ((a :: b :: c :: d :: rest).length + 3) / 4 = (rest.length + 3) / 4 + 1 := by
      simp only [List.length_cons]
      omega
    rw [groupWords, ih, hgroups, List.range_succ_eq_map, List.map_cons, List.map_map]
    rfl

/-- Settles O13: the words are those of `groupWords`, whose word-wide engine is the byte engine. -/
theorem wordAtATimeEquivalence : Obligations.WordAtATimeEquivalence := by
  intro s s' W
  have hlen : s'.length / 4 = (s.length + 3) / 4 := by
    rw [List.length_append, List.length_replicate]
    omega
  have hwords : groupWords s = (List.range (s'.length / 4)).map W := by
    rw [groupWords_eq_map_range, hlen]
    exact List.map_congr_left fun k _ => (groupWordAt_append_zeros s _ k).symm
  refine ⟨?_, hwords, crc32Words_groupWords s⟩
  rw [← crc32Words_groupWords, hwords, crc32Words, List.foldl_map]
  rfl

end Sys2Proof.Machine
end

section
/-! The frame invariants (R121), the receive-side check, and the worked vectors. -/

namespace Sys2Proof.Machine

/-! ### The frame (R121) -/

section Frame

variable (d s o : Byte) (c : Half) (p : List Byte)

theorem length_buildFrame_sub_one :
    (buildFrame d s o c p).1.length - 1 = (frameBody d s o c p).length := by
  rw [buildFrame_fst, List.length_append, List.length_singleton, Nat.add_sub_cancel]

/-- The checksum of a frame's body is the low byte of the frame's accumulator. -/
theorem checksumOf_frameBody :
    checksumOf (frameBody d s o c p) = (buildFrame d s o c p).2.extractLsb' 0 8 := by
  rw [checksumOf_eq_extractLsb', buildFrame_snd]

/-- A frame without its last byte is its body. -/
theorem take_length_sub_one_buildFrame :
    (buildFrame d s o c p).1.take ((buildFrame d s o c p).1.length - 1) = frameBody d s o c p := by
  rw [length_buildFrame_sub_one, buildFrame_fst, List.take_left]

/-- The last byte of a frame is the checksum of its body. -/
theorem getElem?_length_sub_one_buildFrame :
    (buildFrame d s o c p).1[(buildFrame d s o c p).1.length - 1]? = some (checksumOf (frameBody d s o c p)) := by
  rw [length_buildFrame_sub_one, buildFrame_fst, List.getElem?_concat_length]

theorem markers_buildFrame :
    (buildFrame d s o c p).1[0]? = some 0x48#8 ∧ (buildFrame d s o c p).1[1]? = some 0x5A#8 := by
  rw [buildFrame_fst, frameBody_eq]
  exact ⟨rfl, rfl⟩

/-- The payload follows the seven fixed bytes and the high code byte, where there is one. -/
theorem drop_frameBody : (frameBody d s o c p).drop (7 + codeHp c) = p := by
  rw [frameBody_eq]
  refine List.drop_left' ?_
  rcases Nat.le_one_iff_eq_zero_or_eq_one.mp (codeHp_le c) with h | h <;> simp [h]

theorem payload_buildFrame : ((buildFrame d s o c p).1.drop (7 + codeHp c)).take p.length = p := by
  have hle : 7 + codeHp c ≤ (frameBody d s o c p).length := by rw [length_frameBody]; omega
  rw [buildFrame_fst, List.drop_append_of_le_length hle, drop_frameBody, List.take_left]

end Frame

/-- Settles O14, item by item. -/
theorem frameInvariants : Obligations.FrameInvariants := by
  intro d s o c p f a hp
  have hlen : f.length = 8 + hp + p.length := length_buildFrame d s o c p
  have hbody : f.take (f.length - 1) = frameBody d s o c p := take_length_sub_one_buildFrame d s o c p
  have hcount : f.length - 1 - 3 = 4 + hp + p.length := by omega
  refine ⟨markers_buildFrame d s o c p, ?lengthByte, hlen, ⟨?lastByte, ?accumulator⟩,
    payload_buildFrame d s o c p⟩
  case lengthByte => rw [hcount]; exact getElem?_two_buildFrame d s o p c
  case lastByte => rw [hbody]; exact getElem?_length_sub_one_buildFrame d s o c p
  case accumulator => rw [hbody]; exact checksumOf_frameBody d s o c p

/-! ### CHECKSUM -/

section Effect

variable (p : List Byte) (s : State)

theorem effectOf_build_out :
    (effectOf .build p s).out = (buildFrame s.dest s.src s.options s.code p).1 := rfl

theorem effectOf_build_crc32 :
    (effectOf .build p s).crc32 = (buildFrame s.dest s.src s.options s.code p).2 := by
  rw [effectOf, buildEffect]

theorem effectOf_build_crcByte :
    (effectOf .build p s).crcByte = (buildFrame s.dest s.src s.options s.code p).2.setWidth 8 := by
  rw [effectOf, buildEffect]

theorem effectOf_checksum_crc32 : (effectOf .checksum p s).crc32 = crc32Acc (organize p) := rfl

theorem effectOf_checksum_crcByte : (effectOf .checksum p s).crcByte = checksumOf p := rfl

end Effect

/-- Settles O22: BUILD's OUT without its last byte is the body whose checksum BUILD computed. -/
theorem receiveSideCheck : Obligations.ReceiveSideCheck := by
  intro s t u hs hbuild hu hholds
  obtain ⟨p, -, rfl⟩ := commit_next.mp ((exec_busy .build hs).symm.trans hbuild)
  simp only [effectOf_build_out, take_length_sub_one_buildFrame] at hholds
  refine ⟨_, exec_of_holds hu hholds, ?lastByte, ?crcByte, ?crc32, ?out⟩
  case lastByte =>
    simp only [effectOf_build_out, getElem?_length_sub_one_buildFrame, effectOf_checksum_crcByte]
  case crcByte => simp only [effectOf_checksum_crcByte, effectOf_build_crcByte, buildFrame_snd, checksumOf]
  case crc32 => simp only [effectOf_checksum_crc32, effectOf_build_crc32, buildFrame_snd]
  case out => simp only [effectOf_checksum_out]

/-- With ILEN = 0 a command consumes no cell. -/
theorem State.holds_nil {s : State} (h : s.ilen = 0x0000#16) : s.holds [] := by
  simp [State.holds, h]

theorem effectOf_checksum_nil (s : State) :
    effectOf .checksum [] s = { s with crc32 := 0xFFFFFFFF#32, crcByte := 0xFF#8 } := by
  have hacc : crc32Acc (organize []) = 0xFFFFFFFF#32 := rfl
  have hbyte : (0xFFFFFFFF#32).setWidth 8 = 0xFF#8 := by decide
  rw [effectOf, checksumEffect, hacc, hbyte]

/-- Settles O21: the commit on the empty input, whose accumulator is the initial one (R118). -/
theorem emptyInputChecksum : Obligations.EmptyInputChecksum := fun s hb hl => by
  rw [exec_of_holds hb (State.holds_nil hl), effectOf_checksum_nil]

/-! ### Worked vectors -/

/-- Settles O15, by evaluation of the model on the vectors. -/
theorem workedVectors : Obligations.WorkedVectors :=
  ⟨rfl, rfl, by decide +kernel, rfl⟩

end Sys2Proof.Machine
end

section
/-! The commands (R140 to R145): the CMD write, what every command does at its accept and with unwritten input, and
the three commits. -/

namespace Sys2Proof.Machine

/-! ### The two events of a command -/

theorem exec_idle_of_le (i : Instr) {s : State} (he : s.eng = .idle) (hl : s.ilen.toNat ≤ 1024) :
    exec i s = .next { s with done := false, eng := .busy i } := by
  rw [exec_idle i he, accept_eq, if_neg (by omega)]

theorem exec_idle_of_lt (i : Instr) {s : State} (he : s.eng = .idle) (hl : 1024 < s.ilen.toNat) :
    exec i s = .next { s with errLen := true } := by
  rw [exec_idle i he, accept_eq, if_pos hl]

theorem commit_of_inBytes_error (effect : List Byte → State → State) {s : State} {f : Fault}
    (h : inBytes s = .error f) : commit effect s = .fault f := by
  simp only [commit, h]

/-- The input faults at its first unwritten cell (R141). -/
theorem inBytes_of_unwritten {s : State} {k : Nat} (hk : k < s.ilen.toNat) (hnone : Memory.read s.ibuf k = none)
    (hbefore : ∀ j, j < k → Memory.read s.ibuf j ≠ none) : inBytes s = .error (.unwrittenInput k) := by
  have hfault := collectCells_error (i := 0) hk (by simpa using hnone) (by simpa using hbefore)
  simpa [inBytes] using hfault

/-! ### The CMD write -/

/-- A CMD write is `cmdWrite` on the block, whatever is scheduled and recorded (R162). -/
theorem writeGives_cmd {s t : State} {w : Word}
    (h : ∀ rest c, cmdWrite w (s.carried rest c) = .next (t.carried rest c)) : WriteGives s 0x000#14 w t :=
  writeGives_of fun rest => (memWrite_regOffset .cmd w _).trans (h rest _)

theorem writeGives_cmd_busy {s : State} {op : Instr} (he : s.eng = .busy op) (w : Word) :
    WriteGives s 0x000#14 w { s with errBusy := true } :=
  writeGives_cmd fun rest c => cmdWrite_busy (s := s.carried rest c) he w

theorem writeGives_cmd_tooLong {s : State} (i : Instr) (he : s.eng = .idle) (hl : 1024 < s.ilen.toNat) :
    WriteGives s 0x000#14 (encode i) { s with errLen := true } :=
  writeGives_cmd fun rest c => (cmdWrite_idle_of_decode (s := s.carried rest c) he (decode_ok_iff.mpr rfl)).trans
    (exec_idle_of_lt i (s := s.carried rest c) he hl)

theorem writeGives_cmd_accepted {s : State} (i : Instr) (he : s.eng = .idle) (hl : s.ilen.toNat ≤ 1024) :
    WriteGives s 0x000#14 (encode i) { s with done := false, eng := .busy i } :=
  writeGives_cmd fun rest c => cmdWrite_encode_idle (s := s.carried rest c) i he hl

/-- The words that are not reserved are the three commands' (R81, R82). -/
theorem exists_encode_eq {w : Word} (h : w = 0x00000001#32 ∨ w = 0x00000002#32 ∨ w = 0x00000003#32) :
    ∃ i, w = encode i := by
  obtain rfl | rfl | rfl := h
  · exact ⟨.build, rfl⟩
  · exact ⟨.checksum, rfl⟩
  · exact ⟨.organize, rfl⟩

/-- Settles O19, in the order of R140: the busy gate, the decoder (O3), the capacity, the start. -/
theorem cmdWriteAccept : Obligations.CmdWriteAccept := by
  intro s w
  refine ⟨fun op he => writeGives_cmd_busy he w, fun he ⟨h1, h2, h3⟩ => ?reserved, fun he hw hl => ?tooLong,
    fun he hl => ⟨?build, ?checksum, ?organize⟩⟩
  case reserved =>
    obtain ⟨-, hidle, -⟩ := reservedWordsSetOneErrorBit s w h1 h2 h3
    exact hidle he
  case tooLong =>
    obtain ⟨i, rfl⟩ := exists_encode_eq hw
    exact writeGives_cmd_tooLong i he hl
  case build => rintro rfl; exact writeGives_cmd_accepted .build he hl
  case checksum => rintro rfl; exact writeGives_cmd_accepted .checksum he hl
  case organize => rintro rfl; exact writeGives_cmd_accepted .organize he hl

/-! ### The three commands -/

/-- What every command does besides its effect, at the word that encodes it. -/
theorem acceptAndFaults (i : Instr) : AcceptAndFaults i (encode i) := by
  refine ⟨decode_ok_iff.mpr rfl, fun s => ⟨exec_idle_of_le i, exec_idle_of_lt i,
    fun op he => writeGives_cmd_busy he _, fun k he hk hnone hbefore => ?unwritten⟩⟩
  case unwritten =>
    rw [exec_busy i he]
    exact commit_of_inBytes_error _ (inBytes_of_unwritten hk hnone hbefore)

theorem effectOf_build_eq (p : List Byte) (s : State) :
    effectOf .build p s = { s with
      out := (buildFrame s.dest s.src s.options s.code p).1
      crc32 := (buildFrame s.dest s.src s.options s.code p).2
      crcByte := (buildFrame s.dest s.src s.options s.code p).2.extractLsb' 0 8 } := by
  rw [effectOf, buildEffect, BitVec.setWidth_eq_extractLsb' (by decide)]

theorem effectOf_checksum_eq (p : List Byte) (s : State) :
    effectOf .checksum p s = { s with
      crc32 := crc32Acc (organize p)
      crcByte := (crc32Acc (organize p)).extractLsb' 0 8 } := by
  rw [effectOf, checksumEffect, BitVec.setWidth_eq_extractLsb' (by decide)]

theorem effectOf_organize_eq (p : List Byte) (s : State) :
    effectOf .organize p s = { s with out := organize p } := rfl

/-- Settles O16: the accept and the faults of every command, and the commit with BUILD's effect. -/
theorem buildCommand : Obligations.BuildCommand :=
  ⟨acceptAndFaults .build, fun s p he hp => by rw [exec_of_holds he hp, effectOf_build_eq]⟩

/-- Settles O17: the accept and the faults of every command, and the commit with CHECKSUM's effect. -/
theorem checksumCommand : Obligations.ChecksumCommand :=
  ⟨acceptAndFaults .checksum, fun s p he hp => by rw [exec_of_holds he hp, effectOf_checksum_eq]⟩

/-- Settles O18: the accept and the faults of every command, and the commit with ORGANIZE's effect. -/
theorem organizeCommand : Obligations.OrganizeCommand :=
  ⟨acceptAndFaults .organize, fun s p he hp => by rw [exec_of_holds he hp, effectOf_organize_eq]⟩

end Sys2Proof.Machine
end

section
/-! The host's accesses at each offset (R160 to R173): what reads return, the writes with no effect, the busy gate. -/

namespace Sys2Proof.Machine

/-- A write to a register is `writeReg` on the block, whatever is scheduled and recorded (R161). -/
theorem writeGives_regOffset {r : Reg} {s t : State} {d : Word}
    (h : ∀ rest c, writeReg r d (s.carried rest c) = .next (t.carried rest c)) : WriteGives s (regOffset r) d t :=
  writeGives_of fun rest => (memWrite_regOffset r d _).trans (h rest _)

/-! ### The OBUF window -/

theorem obufRead_eq_getD (i : Nat) (s : State) : obufRead i s = (s.out.getD i 0x00#8).setWidth 32 := by
  cases h : s.out[i]? <;> simp [obufRead, h]

/-- An entry reads the byte of OUT at its index, and 0 from OLEN on (R171). -/
theorem readReturns_obufOffset {i : Nat} (hi : i < 2048) (s : State) :
    ReadReturns s (obufOffset i) ((s.out.getD i 0x00#8).setWidth 32) :=
  readReturns_of fun _ => (memRead_obufOffset hi _).trans (congrArg Except.ok (obufRead_eq_getD i _))

theorem readReturns_obufOffset_of_getElem? {i : Nat} {s : State} {b : Byte} (hi : i < 2048) (h : s.out[i]? = some b) :
    ReadReturns s (obufOffset i) (b.setWidth 32) := by
  simpa [h] using readReturns_obufOffset hi s

theorem readReturns_obufOffset_of_length_le {i : Nat} {s : State} (hi : i < 2048) (h : s.out.length ≤ i) :
    ReadReturns s (obufOffset i) 0x00000000#32 := by
  simpa [h] using readReturns_obufOffset hi s

theorem memWrite_obufOffset {i : Nat} (h : i < 2048) (d : Word) (s : State) :
    memWrite (obufOffset i) 4 d s = .next s := by
  simp [memWrite, supported_obufOffset h, region_obufOffset h]

/-- Settles O37: an entry reads OUT with 0 past its end, and the bound of R37 puts the entries from 1033 on past it. -/
theorem obufWindow : Obligations.ObufWindow := fun _ _ d hi =>
  ⟨fun _ => readReturns_obufOffset_of_getElem? hi, readReturns_obufOffset_of_length_le hi,
    fun hout h => readReturns_obufOffset_of_length_le hi (hout.trans h),
    writeGives_of fun _ => memWrite_obufOffset hi d _⟩

/-! ### Reads at every offset -/

/-- The STATUS word as its five bits side by side, ERR_BUSY first (R25, R164). -/
theorem statusWord_eq_append (s : State) :
    statusWord s = (BitVec.ofBool s.errBusy ++ BitVec.ofBool s.errLen ++ BitVec.ofBool s.errCmd ++
      BitVec.ofBool s.done ++ BitVec.ofBool (decide (s.eng ≠ .idle))).setWidth 32 := by
  have hbusy : decide (s.eng ≠ .idle) = s.busy := by simp [← State.busy_eq_true_iff]
  rw [hbusy, statusWord]
  generalize s.errBusy = errBusy, s.errLen = errLen, s.errCmd = errCmd, s.done = done, s.busy = busy
  revert errBusy errLen errCmd done busy
  decide

/-- Settles O30: registers by `readReg`, and every other offset by its region. -/
theorem readAtEveryOffset : Obligations.ReadAtEveryOffset := by
  intro s
  obtain ⟨-, hunwritten, -⟩ := ibufWindow
  refine ⟨readReturns_regOffset .cmd s, ?status, readReturns_regOffset .irqEn s, readReturns_regOffset .dest s,
    readReturns_regOffset .src s, readReturns_regOffset .options s, readReturns_regOffset .code s,
    readReturns_regOffset .ilen s, readReturns_regOffset .olen s, readReturns_regOffset .crcByte s,
    readReturns_regOffset .crc32 s, readReturns_regOffset .caps s, fun off hal h1 h2 => ?reserved,
    fun i hi => ⟨fun b => readReturns_ibufOffset hi, fun hnone rest => hunwritten s i rest hi hnone⟩,
    fun i hi => readReturns_obufOffset hi s, fun off size rest h => (unsupportedAccessFaults s off size 0 rest h).left⟩
  case status => exact statusWord_eq_append s ▸ readReturns_regOffset .status s
  case reserved => exact readReturns_of fun _ => memRead_reserved hal (region_reserved h1 h2) _

/-! ### The busy gate -/

theorem writeReg_input_busy {r : Reg} (hr : r ∈ [.cmd, .dest, .src, .options, .code, .ilen]) {s : State} {op : Instr}
    (he : s.eng = .busy op) (d : Word) : writeReg r d s = .next s.setErrBusy := by
  cases r with
  | cmd => exact cmdWrite_busy he d
  | dest | src | options | code | ilen => exact congrArg Host.Outcome.next (gatedWrite_busy _ he)
  | status | irqEn | olen | crcByte | crc32 | caps => exact absurd hr (by decide)

/-- A write whose offset the busy gate guards, in an idle block: the store, whatever is scheduled and recorded. -/
theorem writeGives_gated_idle {off : Offset} {d : Word} {store : State → State} {s : State} (he : s.eng = .idle)
    (hw : ∀ u, memWrite off 4 d u = .next (gatedWrite store u))
    (hc : ∀ rest c, store (s.carried rest c) = (store s).carried rest c) : WriteGives s off d (store s) :=
  writeGives_of fun rest => by rw [hw, gatedWrite_idle store (s := s.carried rest _) he, hc]

theorem ibufWrite_busy {s : State} {op : Instr} (he : s.eng = .busy op) (i : Nat) (d : Word) :
    ibufWrite i d s = s.setErrBusy :=
  gatedWrite_busy _ he

/-- Settles O31: the gate's two branches at each input, and the only offsets at which a write can set ERR_BUSY. -/
theorem busyGateOnInputs : Obligations.BusyGateOnInputs := by
  intro s d
  refine ⟨fun op he => ⟨?busyReg, fun i hi => ?busyCell⟩, fun he => ?idle, fun off hreg hwin t h ht => ?elsewhere⟩
  case busyReg =>
    change ∀ off ∈ [Reg.cmd, .dest, .src, .options, .code, .ilen].map regOffset, _
    rw [List.forall_mem_map]
    exact fun r hr => writeGives_regOffset fun rest c => writeReg_input_busy hr (s := s.carried rest c) he d
  case busyCell =>
    exact writeGives_of fun rest => (memWrite_ibufOffset hi d _).trans
      (congrArg Host.Outcome.next (ibufWrite_busy (s := s.carried rest _) he i d))
  case idle =>
    have low {n : Nat} (hn : n ≤ 32) : d.extractLsb' 0 n = d.setWidth n := (BitVec.setWidth_eq_extractLsb' hn).symm
    rw [low (by decide), low (by decide)]
    exact ⟨writeGives_gated_idle he (memWrite_regOffset .dest d) fun _ _ => rfl,
      writeGives_gated_idle he (memWrite_regOffset .src d) fun _ _ => rfl,
      writeGives_gated_idle he (memWrite_regOffset .options d) fun _ _ => rfl,
      writeGives_gated_idle he (memWrite_regOffset .code d) fun _ _ => rfl,
      writeGives_gated_idle he (memWrite_regOffset .ilen d) fun _ _ => rfl,
      fun i hi => writeGives_ibufOffset_idle he hi d⟩
  case elsewhere =>
    by_contra hs
    obtain ⟨-, hin | hin⟩ := (memWrite_kind h).right.errBusy_set (Bool.not_eq_true _ ▸ hs) ht
    · exact hreg hin
    · omega

/-! ### IRQ_EN and the read-only registers -/

/-- Settles O33: the two enables are the low bits of the data, and `irq` reads them (R39). -/
theorem irqEnableReadWrite : Obligations.IrqEnableReadWrite := by
  intro s d
  refine ⟨readReturns_regOffset .irqEn s, ?write, by simp [irq, State.doneIE, State.errIE]⟩
  rw [← BitVec.setWidth_eq_extractLsb' (by decide)]
  exact writeGives_regOffset (r := .irqEn) fun _ _ => rfl

theorem writeReg_readOnly {r : Reg} (hr : r ∈ [.olen, .crcByte, .crc32, .caps]) (d : Word) (s : State) :
    writeReg r d s = .next s := by
  cases r with
  | olen | crcByte | crc32 | caps => rfl
  | cmd | status | irqEn | dest | src | options | code | ilen => exact absurd hr (by decide)

/-- Settles O34, by `readReg` and the writes that do nothing. -/
theorem readOnlyRegisters : Obligations.ReadOnlyRegisters := by
  intro s d
  refine ⟨readReturns_regOffset .olen s, readReturns_regOffset .crcByte s, readReturns_regOffset .crc32 s,
    readReturns_regOffset .caps s, ?writes⟩
  change ∀ off ∈ [Reg.olen, .crcByte, .crc32, .caps].map regOffset, _
  rw [List.forall_mem_map]
  exact fun r hr => writeGives_regOffset fun _ _ => writeReg_readOnly hr d _

end Sys2Proof.Machine
end

section
/-! Reset (R200, R201), and the commit that an accepted command reaches under every harmless schedule (R211). -/

namespace Sys2Proof.Machine

theorem step_of_schedule_reset {s : State} {rest : List Move} (h : s.schedule = .reset :: rest) :
    step s = .next (resetBlock { s with schedule := rest }) := by
  simp only [step, nextMove, h]

/-- Settles O44: the step is `resetBlock`, which keeps nothing of the block. -/
theorem resetSetsEveryElement : Obligations.ResetSetsEveryElement := fun _ _ h => step_of_schedule_reset h

/-! ### The commit -/

/-- Written input cells hold some input (R141, R208). -/
theorem State.inputWritten.exists_holds {s : State} (h : s.inputWritten) : ∃ p, s.holds p := by
  choose b hb using fun k hk => Option.ne_none_iff_exists'.mp (h k hk)
  refine ⟨List.ofFn fun k : Fin s.ilen.toNat => b k k.isLt, List.length_ofFn, fun k c hc => ?_⟩
  rw [List.getElem?_ofFn] at hc
  split at hc
  · next hk => exact (hb k hk).trans hc
  · cases hc

theorem State.SameOperands.inputWritten {s t : State} (h : s.SameOperands t) (hw : s.inputWritten) :
    t.inputWritten := by
  simpa only [State.inputWritten, h.ilen, h.ibuf] using hw

/-- With its input written a command in progress can commit at any turn of the engine. -/
theorem exec_of_inputWritten {s : State} {i : Instr} (he : s.eng = .busy i) (hw : s.inputWritten) :
    ∃ t, exec i s = .next t ∧ t.eng = .idle ∧ t.done = true := by
  obtain ⟨p, hp⟩ := hw.exists_holds
  exact ⟨_, exec_of_holds he hp, rfl, rfl⟩

theorem engineMove_of_inputWritten {s : State} {i : Instr} (he : s.eng = .busy i) (hw : s.inputWritten) :
    ∃ t, engineMove s = .next t ∧ t.eng = .idle ∧ t.done = true := by
  rw [engineMove_busy he]
  exact exec_of_inputWritten he hw

/-! ### A harmless access meets no fault -/

theorem memRead_ok_of_harmless {off : Offset} {size : Nat} (h : accessHarmless (.read off size)) (s : State) :
    ∃ v, memRead off size s = .ok v := by
  obtain ⟨hsup, hoff⟩ := h
  rw [memRead, if_pos hsup]
  cases hr : region off with
  | reg r => exact ⟨_, rfl⟩
  | reserved => exact ⟨_, rfl⟩
  | obuf k => exact ⟨_, rfl⟩
  | ibuf k =>
    obtain ⟨-, h1, h2⟩ := region_ibuf_bound hr
    omega

theorem writeReg_next_of_busy (r : Reg) (d : Word) {s : State} {i : Instr} (he : s.eng = .busy i) :
    ∃ t, writeReg r d s = .next t := by
  cases r with
  | cmd => exact ⟨_, cmdWrite_busy he d⟩
  | _ => exact ⟨_, rfl⟩

theorem memWrite_next_of_busy {off : Offset} {size : Nat} (h : supported off size = true) (d : Word) {s : State}
    {i : Instr} (he : s.eng = .busy i) : ∃ t, memWrite off size d s = .next t := by
  rw [memWrite, if_pos h]
  cases region off with
  | reg r => exact writeReg_next_of_busy r d he
  | reserved | ibuf | obuf => exact ⟨_, rfl⟩

theorem hostMove_next_of_harmless {a : Access} (ha : accessHarmless a) {s : State} {i : Instr}
    (he : s.eng = .busy i) : ∃ t, hostMove a s = .next t := by
  cases a with
  | read off size =>
    obtain ⟨v, hv⟩ := memRead_ok_of_harmless ha s
    exact ⟨_, by rw [hostMove, hv]⟩
  | write off size d => exact memWrite_next_of_busy ha d (s := s.record ⟨.W, off, d⟩) he

/-- Settles O49, by induction on the schedule: a harmless access leaves the command in progress as it is and uses up one
turn, and a `WAIT`, the engine's move and the end of the schedule each lead to the commit. -/
theorem acceptedCommandCommits : Obligations.AcceptedCommandCommits := by
  intro s i he hw hs
  generalize hsched : s.schedule = moves at hs ⊢
  induction moves generalizing s with
  | nil =>
    obtain ⟨t, ht, hdone⟩ := engineMove_of_inputWritten he hw
    exact ⟨1, t, le_refl 1, run_one_of_step ((step_of_schedule_nil hsched).trans ht), hdone⟩
  | cons m rest ih =>
    obtain ⟨⟨hnoReset, hharmless⟩, hrest⟩ := List.forall_mem_cons.mp hs
    cases m with
    | reset => exact absurd rfl hnoReset
    | engine =>
      obtain ⟨t, ht, hdone⟩ := engineMove_of_inputWritten (s := { s with schedule := rest }) he hw
      exact ⟨1, t, Nat.le_add_left 1 _, run_one_of_step ((step_of_schedule_engine hsched).trans ht), hdone⟩
    | wait polls =>
      obtain ⟨t, ht, hdone⟩ := exec_of_inputWritten (s := s.polled polls (.wait 0 :: rest)) he hw
      have hcommit := (step_of_schedule_wait_zero (s := s.polled polls (.wait 0 :: rest)) he rfl).trans ht
      exact ⟨polls + 1, t, by rw [turns]; omega,
        (run_add (run_wait_polls he hsched)).trans (run_one_of_step hcommit), hdone⟩
    | host a =>
      obtain ⟨u, hu⟩ := hostMove_next_of_harmless (hharmless a rfl) (s := { s with schedule := rest }) he
      have hstep := (step_of_schedule_host hsched).trans hu
      obtain ⟨hjob, hsched'⟩ := step_host_of_busy he hsched hstep
      obtain ⟨n, t, hn, hrun, hdone⟩ :=
        ih u (hjob.eng.trans he) (hjob.toSameOperands.inputWritten hw) hsched' hrest
      exact ⟨n + 1, t, by rw [turns]; omega, (run_succ_of_step hstep).trans hrun, hdone⟩

end Sys2Proof.Machine
end
